-- ==== Sys2Proof/Word.lean ====
section
/-! DEFINITION. The two word types of the engine: the byte (accumulator, data unit, checksum) and the command word. -/

namespace Sys2Proof

/-- An 8-bit value: the accumulator, one input unit, the checksum.
`00_scope.md` R4 (`WIDTH`, `DATA_WIDTH`); bit 0 is the least significant bit (section 5). -/
abbrev Byte := BitVec 8

/-- A command word `cmd[8:0]`: always 9 bits, one format. `00_scope.md` R5 (`CMD_WIDTH`), `30_encoding.md` R30. -/
abbrev CmdWord := BitVec 9

end Sys2Proof
end

