-- ==== Sys2Proof/Syntax.lean ====
section
/-! DEFINITION. The engine's two operations, its equivalent of instructions (`30_encoding.md` R33, R36). -/

namespace Sys2Proof

/-- One operation. There are exactly two; there is no no-operation, load, read, compare or length command
(`30_encoding.md` R36). -/
inductive Instr where
  /-- `UPDATE d`: absorb one byte of the message (`40_checksum_ops.md` R46). -/
  | update (d : Byte)
  /-- `INIT`: start a new message (`40_checksum_ops.md` R42). It has no operand: `cmd[7:0]` is ignored
  (`30_encoding.md` R35). -/
  | init
  deriving DecidableEq, Repr

end Sys2Proof
end

