-- ==== Sys2Proof/WellFormed.lean ====
section
/-! DEFINITION. Which terms are meaningful. Every `Instr` is (`30_encoding.md` R34: no illegal and no reserved command);
the one check that can fail is on a command written down as a number (`30_encoding.md` R31). -/

namespace Sys2Proof

/-- Every operation is well-formed: the byte of an `UPDATE` is 8 bits by its type, and `INIT` has no operand
(`30_encoding.md` R32, R34). -/
def Instr.wf : Instr → Bool
  | .update _ => true
  | .init => true

/-- A command stream written as numbers has one natural number from 0 to 511 for each command
(`30_encoding.md` R31). -/
def commandNumberWf (n : Nat) : Bool := decide (n ≤ 511)

end Sys2Proof
end

