-- ==== Sys2Proof/Decode.lean ====
section
/-! DEFINITION. The command word: its two fields, the opcode map, the decoder (total on the 512 words), a decoder for
commands written as numbers (rejecting by name), and the encoder. `30_encoding.md` R30 to R35. -/

namespace Sys2Proof

/-- Field `op`, `cmd[8]`: 0 = `UPDATE`, 1 = `INIT` (`30_encoding.md` R30). -/
def opField (c : CmdWord) : BitVec 1 := c.extractLsb' 8 1

/-- Field `data`, `cmd[7:0]`: the byte of an `UPDATE`, used as it stands; `cmd[7]` is `d[7]`
(`30_encoding.md` R30, R32). -/
def dataField (c : CmdWord) : Byte := c.extractLsb' 0 8

/-- `Decode(c)` of `30_encoding.md` R33. Every word spells exactly one operation, and all 256 words with `op = 1` are
`INIT` (R34, R35). -/
def decode (c : CmdWord) : Instr :=
  if opField c = 1 then .init else .update (dataField c)

/-- Why a number is not a command. -/
inductive DecodeError where
  /-- The number is above 511, so it does not fit the nine wires of `cmd` (`30_encoding.md` R31). Log entry 6 (DEDUCED, safe). -/
  | notNineBits
  deriving DecidableEq, Repr

/-- The command a natural number stands for (`30_encoding.md` R31); a number above 511 is refused by name. -/
def decodeNumber (n : Nat) : Except DecodeError Instr :=
  if commandNumberWf n then .ok (decode (BitVec.ofNat 9 n)) else .error .notNineBits

/-- The instruction the decoder reads from a table row's word of `nbits` bits whose number is `w`. A command is one
9-bit word presented whole (`30_encoding.md` R31), so no bytes have to be ordered: the number is the word. -/
def decodeTableWord (nbits w : Nat) : Option Instr :=
  match decodeNumber (w % 2 ^ nbits) with
  | .ok i => some i
  | .error _ => none

/-- `{op, data}` with `op` in the high bit (`30_encoding.md` R30). -/
def commandWord (op : BitVec 1) (data : Byte) : CmdWord := op ++ data

/-- The word of an operation: `UPDATE d` is `0x000 + d`, and `INIT` is the canonical `0x100`, the only spelling an
assembler emits (`30_encoding.md` R35, R37). -/
def encode : Instr → CmdWord
  | .update d => commandWord 0 d
  | .init => commandWord 1 0

/-- A row of the opcode map: a word `c` spells the row's operation when `(c & mask) = pattern`. -/
structure OpRow where
  mnemonic : String
  pattern : CmdWord
  mask : CmdWord
  deriving DecidableEq, Repr

/-- The row of `UPDATE` (`30_encoding.md` R33). -/
def updateRow : OpRow := ⟨"UPDATE", 0x000, 0x100⟩

/-- The row of `INIT` (`30_encoding.md` R33). -/
def initRow : OpRow := ⟨"INIT", 0x100, 0x100⟩

/-- The opcode map of `30_encoding.md` R33, as printed. -/
def opcodeMap : List OpRow := [updateRow, initRow]

/-- `(c & Mask) = Match` (`30_encoding.md` R33). -/
def OpRow.spells (r : OpRow) (c : CmdWord) : Bool := c &&& r.mask == r.pattern

/-- The row an operation belongs to. -/
def Instr.row : Instr → OpRow
  | .update _ => updateRow
  | .init => initRow

end Sys2Proof
end

