-- ==== Sys2Proof/Machine/Params.lean ====
section
/-! DEFINITION. The constants the hardware hardwires, each in one place so that an audit can change it in one place
(`00_scope.md` R4, R9). None is programmable and none is state (`10_state.md` R12, R16). -/

namespace Sys2Proof.Machine

/-- `INIT_VALUE`: the accumulator at the start of a message (`00_scope.md` R4). -/
def initValue : Byte := 0xFF

/-- `POLY`: the value XORed in after a shift that drops a 1 (`00_scope.md` R4). -/
def poly : Byte := 0x31

/-- `ITER`: inner iterations for one byte (`00_scope.md` R4). -/
def iter : Nat := 8

/-- The value `rst` loads into `acc` (`00_scope.md` R5, `10_state.md` R13): a decision of the spec's own, equal to
`INIT_VALUE`. Log entry 12 (DEDUCED, unsafe). -/
def resetValue : Byte := 0xFF

end Sys2Proof.Machine
end

