-- ==== Sys2Proof/Machine/State.lean ====
section
/-! DEFINITION. The state: the engine's one register, and beside it the consumer's drive of the input ports that is
still to come. Faults, refusals, reset, power-up. -/

namespace Sys2Proof.Machine

/-- What the consumer drives on the input ports at one clock edge at which no command is in flight
(`10_state.md` R19). `clk` is timing only and the model has no time. Log entries 2 (DEDUCED, safe)
and 13 (DEDUCED, unsafe). -/
structure PortIn where
  /-- `rst`, active high. -/
  rst : Bool
  /-- `cmd_valid`: the consumer has a command on `cmd`. -/
  cmdValid : Bool
  /-- `cmd[8:0]`; it means nothing while `cmd_valid` is 0 (`30_encoding.md` R36). -/
  cmd : CmdWord
  deriving DecidableEq, Repr

/-- The engine's complete architectural state (`10_state.md` R12: "A model's state record has that one field"). -/
structure Engine where
  /-- The accumulator (`10_state.md` R10); `none` is the spec's own "no value" between power-up and the first reset or
  `INIT` (`10_state.md` R12, R13). Log entry 4 (DESIGN CHOICE, safe). -/
  acc : Option Byte
  deriving DecidableEq, Repr

/-- The machine: the engine, and the input of the step relation. The inputs are the consumer's and no state of the
engine (`10_state.md` R12); they stand here because a step takes a state alone. Log entry 1 (DESIGN CHOICE, safe). -/
structure State where
  engine : Engine
  /-- What the consumer still presents, the next first. -/
  inputs : List PortIn
  deriving DecidableEq, Repr

/-- The engine raises nothing: no exception, trap, interrupt or error (`60_exceptions.md` R70 to R75, R78: "No run of the
engine ends in a fault that the hardware itself raises"). So there is no fault at all. Log entry 7 (DEDUCED, unsafe). -/
inductive Fault where
  deriving DecidableEq, Repr

/-- Why the model gives no next state. -/
inductive Refusal where
  /-- Raised by `exec` for an instruction that has no meaning yet; no arm raises it now. Safe. -/
  | notModelled (mnemonic : String)
  /-- Raised by `UPDATE` when `acc` has no value: the spec gives no result and has the model refuse
  (`60_exceptions.md` R78, `93_implementation_defined.md` U1). Safe. Log entry 4 (DESIGN CHOICE, safe). -/
  | updateWithoutValue
  /-- Raised by sampling `crc` when `acc` has no value: no defined result (`60_exceptions.md` R78,
  `93_implementation_defined.md` U1). Never raised by a step. Safe. Log entry 4 (DESIGN CHOICE, safe). -/
  | sampleWithoutValue
  deriving DecidableEq, Repr

/-- Right after `rst` falls: `acc = 0xFF`, nothing in flight (`10_state.md` R13, `70_reset_and_hazards.md` R80), and
nothing presented yet. -/
def State.reset : State := { engine := { acc := some resetValue }, inputs := [] }

/-- After power-up, before any reset or `INIT`: `acc` has no value (`10_state.md` R13). -/
def State.powerUp : State := { engine := { acc := none }, inputs := [] }

end Sys2Proof.Machine
end

