-- ==== Sys2Proof/Machine/Ops.lean ====
section
/-! DEFINITION. The named operations: the accumulator's reads and writes, the arithmetic of one byte, the port rules and
the reset event. There is no exception to take and none to return from (`60_exceptions.md` R74, R75). -/

namespace Sys2Proof.Machine

/-! ### The accumulator -/

/-- `acc <- v` (`00_scope.md` section 5). -/
def State.writeAcc (s : State) (v : Byte) : State := { s with engine := { acc := some v } }

/-- The consumer's remaining drive becomes `ps`. -/
def State.withInputs (s : State) (ps : List PortIn) : State := { s with inputs := ps }

/-- The output `crc[7:0]`: the accumulator itself, with no output register, final XOR or reversal (`10_state.md` R11).
`none` where `acc` has no value. It exists between steps only, where no command is in flight
(`70_reset_and_hazards.md` R87). -/
def State.crc (s : State) : Option Byte := s.engine.acc

/-- The consumer samples `crc` between two steps: the value of `acc`, and no defined result where there is none
(`60_exceptions.md` R78). -/
def State.sampleCrc (s : State) : Except Refusal Byte :=
  match s.engine.acc with
  | some a => .ok a
  | none => .error .sampleWithoutValue

/-! ### Arithmetic -/

/-- `a << 1`: one bit wider, `{a, 0b0}` (`00_scope.md` section 5). -/
def shiftLeftOne (a : Byte) : BitVec 9 := a ++ (0 : BitVec 1)

/-- `trunc8(v)`: the low 8 bits (`00_scope.md` section 5). -/
def trunc8 (v : BitVec 9) : Byte := v.extractLsb' 0 8

/-- "The high bit": `a[7]` (`00_scope.md` section 5). -/
def highBit (a : Byte) : Bool := a.getLsbD 7

/-- `BitStep(a)`: the bit tested is bit 7 before the shift (`40_checksum_ops.md` R40). -/
def bitStep (a : Byte) : Byte :=
  if highBit a then trunc8 (shiftLeftOne a) ^^^ poly else trunc8 (shiftLeftOne a)

/-- `n` inner iterations. -/
def bitSteps : Nat → Byte → Byte
  | 0, a => a
  | n + 1, a => bitSteps n (bitStep a)

/-- `ByteStep(a, d)`: the byte is XORed in once, then exactly `ITER` iterations (`40_checksum_ops.md` R41). -/
def byteStep (a d : Byte) : Byte := bitSteps iter (a ^^^ d)

/-! ### The ports -/

/-- `cmd_ready` between steps: low while `rst` is 1, otherwise high, since no command is in flight there
(`10_state.md` R19). -/
def PortIn.cmdReady (p : PortIn) : Bool := !p.rst

/-- A command is accepted where `rst = 0`, `cmd_valid = 1` and `cmd_ready = 1` (`10_state.md` R19). -/
def PortIn.accepts (p : PortIn) : Bool := !p.rst && p.cmdValid && p.cmdReady

/-- The consumer presents command `c`. -/
def present (c : CmdWord) : PortIn := { rst := false, cmdValid := true, cmd := c }

/-- The consumer presents nothing; `junk` is what the wires of `cmd` happen to carry (`30_encoding.md` R36). -/
def idle (junk : CmdWord) : PortIn := { rst := false, cmdValid := false, cmd := junk }

/-- `acc <- 0xFF` while `rst = 1`. It reads nothing (`70_reset_and_hazards.md` R80). -/
def State.resetEngine (s : State) : State := s.writeAcc resetValue

end Sys2Proof.Machine
end

