-- ==== Sys2Proof/Machine/Operands.lean ====
section
/-! DEFINITION. The operands. `UPDATE` has two: the byte of the command, which decoding has already taken from
`cmd[7:0]` (`30_encoding.md` R32), and the old accumulator, implicit. `INIT` has none. -/

namespace Sys2Proof.Machine

/-- Run `k` on the old accumulator, the implicit operand of `UPDATE`. Where `acc` has no value the spec gives no result
and the model refuses (`40_checksum_ops.md` R46, `60_exceptions.md` R78). Log entry 4 (DESIGN CHOICE, safe). -/
def withOldAcc (s : State) (k : Byte → Host.Outcome State Fault Refusal) : Host.Outcome State Fault Refusal :=
  match s.engine.acc with
  | some a => k a
  | none => .refused .updateWithoutValue

end Sys2Proof.Machine
end

