-- ==== Sys2Proof/Machine/Checksum.lean ====
section
/-! DEFINITION. The meanings of the two operations (`40_checksum_ops.md` section 2). -/

namespace Sys2Proof.Machine

/-- `UPDATE d`: `acc <- ByteStep(acc, d)`. No flags, no exceptions (`40_checksum_ops.md` R46; where its prose
and its pseudocode differ, log entry 11 (DEDUCED, unsafe)). -/
def execUpdate (d : Byte) (s : State) : Host.Outcome State Fault Refusal :=
  withOldAcc s fun a => .next (s.writeAcc (byteStep a d))

/-- `INIT`: `acc <- 0xFF`. It reads nothing, so it is defined in every state, power-up included
(`40_checksum_ops.md` R42). -/
def execInit (s : State) : Host.Outcome State Fault Refusal :=
  .next (s.writeAcc initValue)

end Sys2Proof.Machine
end

