-- ==== Sys2Proof/Machine/Dispatch.lean ====
section
/-! DEFINITION. From an operation to its meaning, one arm for each. -/

namespace Sys2Proof.Machine

def exec (i : Instr) (s : State) : Host.Outcome State Fault Refusal :=
  match i with
  | .update d => Sys2Proof.Machine.execUpdate d s
  | .init => Sys2Proof.Machine.execInit s

end Sys2Proof.Machine
end

