-- ==== Sys2Proof/Machine/Ports.lean ====
section
/-! DEFINITION. What the engine does at one clock edge, given what the consumer drives, and what it does when the
consumer presents nothing more. -/

namespace Sys2Proof.Machine

/-- One edge. Reset wins over a command, which is then neither executed nor remembered (`60_exceptions.md` R73); an
accepted command is one step (`10_state.md` R19); otherwise the edge is idle and `acc` keeps its value. -/
def react (p : PortIn) (s : State) : Host.Outcome State Fault Refusal :=
  if p.rst then .next s.resetEngine
  else if p.accepts then exec (decode p.cmd) s
  else .next s

/-- Nothing is presented: the engine waits, and `acc` keeps its value for as long as it does (`10_state.md` R19).
Log entry 3 (DESIGN CHOICE, safe). -/
def wait (s : State) : Host.Outcome State Fault Refusal := .next s

/-- `p` is what the consumer drives next, before all it was going to drive. -/
def State.drive (s : State) (p : PortIn) : State := s.withInputs (p :: s.inputs)

/-- The command whose number is the low `nbits` bits of `w` is presented next. A number above 511 is on no nine wires,
so then nothing is presented (log entry 6: DEDUCED, safe). -/
def State.presentNumber (s : State) (nbits w : Nat) : State :=
  if commandNumberWf (w % 2 ^ nbits) then s.drive (present (BitVec.ofNat 9 (w % 2 ^ nbits))) else s

end Sys2Proof.Machine
end

