-- ==== Sys2Proof/Machine/Step.lean ====
section
/-! DEFINITION. One step: the engine takes the next drive of its ports and reacts to it. -/

namespace Sys2Proof.Machine

/-- One step (`10_state.md` R19, `60_exceptions.md` R78). -/
def step (s : State) : Host.Outcome State Fault Refusal :=
  match s.inputs with
  | [] => wait s
  | p :: rest => react p (s.withInputs rest)

/-- The engine fetches nothing (`10_state.md` R14): the next instruction is the command the consumer presents next.
Log entry 5 (DESIGN CHOICE, safe). -/
def State.withFetchWord (s : State) (nbits w : Nat) : State := s.presentNumber nbits w

end Sys2Proof.Machine
end

