-- ==== Sys2Proof/Config.lean ====
section
/-! DEFINITION. What an implementation fixes and this spec leaves open (`00_scope.md` R6): the number of clock cycles
a command keeps the engine busy, and how `rst` is sampled. Each is a constant without a known value, so no proof can
use one. The algorithm's own constants are in Machine/Params.lean. -/

namespace Sys2Proof.Config

/-- Whether `rst` acts at a clock edge or at once (`00_scope.md` R6, `RESET_KIND`). -/
inductive ResetKind where
  | synchronous
  | asynchronous
  deriving DecidableEq, Repr, Inhabited

/-- `RESET_KIND`. Nothing reads it: the model has no time and does not distinguish the two
(`70_reset_and_hazards.md` R80). -/
opaque resetKind : ResetKind

/-- How many cycles more than one an `INIT` keeps the engine busy; see `tInit`. -/
opaque tInitBeyondOne : Nat

/-- How many cycles more than one an `UPDATE` keeps the engine busy; see `tUpdate`. -/
opaque tUpdateBeyondOne : Nat

/-- `T_INIT`, an integer >= 1 (`00_scope.md` R6): cycles from the acceptance of an `INIT` to `cmd_ready` high again. -/
def tInit : Nat := tInitBeyondOne + 1

/-- `T_UPDATE`, an integer >= 1 (`00_scope.md` R6): the same for an `UPDATE`. It does not depend on the data byte
(`70_reset_and_hazards.md` R90), so it is no function of one. -/
def tUpdate : Nat := tUpdateBeyondOne + 1

end Sys2Proof.Config
end

