-- ==== Sys2Proof/Machine/Timing.lean ====
section
/-! DEFINITION. How long a command keeps the engine busy, in terms of the open parameters (`70_reset_and_hazards.md`
R90). The step has no time and does not use this file. Log entry 8 (DEDUCED, unsafe). -/

namespace Sys2Proof.Machine

/-- Cycles from the acceptance of a command to `cmd_ready` high again. -/
def busyCycles : Instr → Nat
  | .update _ => Config.tUpdate
  | .init => Config.tInit

/-- The same for commands presented back to back. -/
def busyCyclesAll : List Instr → Nat
  | [] => 0
  | i :: is => busyCycles i + busyCyclesAll is

end Sys2Proof.Machine
end

