-- ==== Sys2Proof/Machine/Program.lean ====
section
/-! DEFINITION. The spec's notation for programs: lines, pseudo-operations and their expansion, and the text of a line
(`30_encoding.md` section 5). None of it is hardware: the engine sees command words only. -/

namespace Sys2Proof.Machine

/-- One line of a program: a command (`30_encoding.md` R37) or a pseudo-operation (R38). -/
inductive Line where
  | init
  | update (b : Byte)
  /-- `MSG b0 ... b(n-1)`: compute `CRC8` of the bytes. -/
  | msg (bs : List Byte)
  /-- `APPEND b0 ... b(n-1)`: continue the current message. -/
  | append (bs : List Byte)
  /-- `CHK c`: absorb a received checksum byte; `UPDATE` under another name. -/
  | chk (c : Byte)
  deriving DecidableEq, Repr

/-- The commands a line stands for, and nothing else (`30_encoding.md` R37, R38). -/
def Line.expand : Line → List Instr
  | .init => [.init]
  | .update b => [.update b]
  | .msg bs => .init :: bs.map .update
  | .append bs => bs.map .update
  | .chk c => [.update c]

/-- The command words of a program: first line to last, each once (`30_encoding.md` R37). -/
def assemble (ls : List Line) : List CmdWord := (ls.flatMap Line.expand).map encode

/-! ### The text of a line

Log entry 9 (DESIGN CHOICE, safe) names what the spec does not say of it. -/

/-- The hexadecimal digits, as the spec writes them. -/
def hexDigits : List Char := ['0', '1', '2', '3', '4', '5', '6', '7', '8', '9', 'A', 'B', 'C', 'D', 'E', 'F']

/-- The value of a hexadecimal digit. -/
def hexValue (c : Char) : Option Nat :=
  if c ∈ hexDigits then some (hexDigits.idxOf c) else none

/-- A byte literal `0x00` to `0xFF`: two digits (`00_scope.md` section 5, `30_encoding.md` R37). -/
def parseByte : List Char → Option Byte
  | ['0', 'x', h, l] =>
    match hexValue h, hexValue l with
    | some a, some b => some (BitVec.ofNat 8 (16 * a + b))
    | _, _ => none
  | _ => none

/-- A byte as a literal. -/
def printByte (b : Byte) : List Char :=
  ['0', 'x', hexDigits.getD (b.toNat / 16) '0', hexDigits.getD (b.toNat % 16) '0']

/-- Byte literals, all or none. -/
def parseBytes : List (List Char) → Option (List Byte)
  | [] => some []
  | w :: ws =>
    match parseByte w, parseBytes ws with
    | some b, some bs => some (b :: bs)
    | _, _ => none

/-- What stands before the first `;`: a comment runs to the end of the line (`30_encoding.md` R37). -/
def dropComment : List Char → List Char
  | [] => []
  | c :: cs => if c = ';' then [] else c :: dropComment cs

/-- The words of a line, separated by spaces; `cur` is the word being read, its last character first. -/
def splitWords (cur : List Char) : List Char → List (List Char)
  | [] => if cur = [] then [] else [cur.reverse]
  | c :: cs =>
    if c = ' ' then
      if cur = [] then splitWords [] cs else cur.reverse :: splitWords [] cs
    else splitWords (c :: cur) cs

/-- A line from its words. Mnemonics are upper case (`30_encoding.md` R37). -/
def parseWords : List (List Char) → Option Line
  | [] => none
  | w :: args =>
    match parseBytes args with
    | none => none
    | some bs =>
      if w = ['I', 'N', 'I', 'T'] then
        match bs with
        | [] => some .init
        | _ :: _ => none
      else if w = ['U', 'P', 'D', 'A', 'T', 'E'] then
        match bs with
        | [b] => some (.update b)
        | _ => none
      else if w = ['M', 'S', 'G'] then some (.msg bs)
      else if w = ['A', 'P', 'P', 'E', 'N', 'D'] then some (.append bs)
      else if w = ['C', 'H', 'K'] then
        match bs with
        | [b] => some (.chk b)
        | _ => none
      else none

/-- A line of program text. -/
def parseLine (text : List Char) : Option Line := parseWords (splitWords [] (dropComment text))

/-- Operands as text, a space before each. -/
def printOperands : List Byte → List Char
  | [] => []
  | b :: bs => ' ' :: printByte b ++ printOperands bs

/-- The text of a line. -/
def printLine : Line → List Char
  | .init => ['I', 'N', 'I', 'T']
  | .update b => ['U', 'P', 'D', 'A', 'T', 'E'] ++ printOperands [b]
  | .msg bs => ['M', 'S', 'G'] ++ printOperands bs
  | .append bs => ['A', 'P', 'P', 'E', 'N', 'D'] ++ printOperands bs
  | .chk c => ['C', 'H', 'K'] ++ printOperands [c]

end Sys2Proof.Machine
end

