-- ==== Sys2Proof/Machine/Protocol.lean ====
section
/-! DEFINITION. How a consumer uses the engine: runs, message transactions, the two ways of checking a received checksum
and the groups of bytes the source checks (`41_message_protocol.md`). The verdicts are the consumer's, not the engine's
(R65, R71). -/

namespace Sys2Proof.Machine

/-- `n` steps, stopping where the model gives no next state. -/
def run : Nat → State → Host.Outcome State Fault Refusal
  | 0, s => .next s
  | n + 1, s =>
    match step s with
    | .next t => run n t
    | .fault r => .fault r
    | .refused r => .refused r

/-- A run of the engine (`70_reset_and_hazards.md` R91): the consumer drives `ps`, before whatever else it was going to
drive, and the engine takes all of it, one drive a step. -/
def runOn (ps : List PortIn) (s : State) : Host.Outcome State Fault Refusal :=
  run ps.length (s.withInputs (ps ++ s.inputs))

/-- A program's commands, presented one after the other (`30_encoding.md` R37). -/
def runProgram (ls : List Line) (s : State) : Host.Outcome State Fault Refusal :=
  runOn ((assemble ls).map present) s

/-- The result of a run: `crc` after its last event (`30_encoding.md` R37, `70_reset_and_hazards.md` R91). -/
def crcAfter (o : Host.Outcome State Fault Refusal) : Option Byte :=
  match o with
  | .next t => t.crc
  | .fault _ => none
  | .refused _ => none

/-! ### Checking a received checksum (`41_message_protocol.md` R65) -/

/-- The compare method: `MSG m`, and the consumer compares `crc` with the received byte `c`. -/
def compareCheck (m : List Byte) (c : Byte) (s : State) : Bool :=
  crcAfter (runProgram [.msg m] s) == some c

/-- The residue method: `MSG m`; `CHK c`, and the group is valid when `crc = 0x00`. -/
def residueCheck (m : List Byte) (c : Byte) (s : State) : Bool :=
  crcAfter (runProgram [.msg m, .chk c] s) == some 0

/-- `m` with its checksum appended, as a sender protects it (`41_message_protocol.md` R61). -/
def protect (m : List Byte) : List Byte := m ++ [crc8 m]

/-! ### The groups the source checks -/

/-- A Family-A frame is valid when byte 6 is the checksum of bytes 0 to 5 (`41_message_protocol.md` R62). -/
def familyAValid (f : Vector Byte 7) : Bool := f[6] == crc8 [f[0], f[1], f[2], f[3], f[4], f[5]]

/-- A Family-B group: two data bytes, then their checksum (`41_message_protocol.md` R63). A status read is one such
group (R64). -/
def familyBGroupValid (g : Vector Byte 3) : Bool := g[2] == crc8 [g[0], g[1]]

/-- The two groups of a Family-B measurement response, each checked on its own (`41_message_protocol.md` R63). -/
def familyBGroups (r : Vector Byte 6) : Vector Byte 3 × Vector Byte 3 :=
  (#v[r[0], r[1], r[2]], #v[r[3], r[4], r[5]])

end Sys2Proof.Machine
end

