-- ==== Sys2Proof/Safety.lean ====
section
/-! DEFINITION. What a claim about a run may take as premises (`70_reset_and_hazards.md` R92), and what it is about: the
message so far. None of this is state of the engine (`10_state.md` R12): it is read off what the consumer drives. -/

namespace Sys2Proof.Machine

/-- `acc` has a value: the form of premise (1) of `70_reset_and_hazards.md` R92 that is about the start state alone. The
whole premise is `InitialisedRun`. -/
def Initialised (s : State) : Prop := s.engine.acc.isSome = true

/-- An event of a run: a reset or an accepted command (`70_reset_and_hazards.md` R91). An idle edge is none. -/
def PortIn.isEvent (p : PortIn) : Bool := p.rst || p.accepts

/-- A reset or an `INIT`: what gives `acc` a value whatever it was (`60_exceptions.md` R78). -/
def PortIn.startsMessage (p : PortIn) : Bool := p.rst || (p.accepts && decode p.cmd == .init)

/-- A run starts with a reset or an `INIT`: its first event is one. Idle edges may stand before it, since they are no
events (`70_reset_and_hazards.md` R91). -/
def startsFresh : List PortIn → Bool
  | [] => false
  | p :: ps => if p.isEvent then p.startsMessage else startsFresh ps

/-- Premise (1), `Initialised`, of `70_reset_and_hazards.md` R92, about the run of the drives `ps` from `s`: the run starts
with a reset or an `INIT`, or from a state where `acc` has a value. -/
def InitialisedRun (ps : List PortIn) (s : State) : Prop := startsFresh ps = true ∨ Initialised s

/-- The message so far (`00_scope.md` section 6, "message"): everything presented by `UPDATE` since the last `INIT` or
reset, `none` before the first of either; and what one more drive of the ports makes of it. -/
def messageStep (m : Option (List Byte)) (p : PortIn) : Option (List Byte) :=
  if p.rst then some []
  else if p.cmdValid then
    match decode p.cmd with
    | .init => some []
    | .update d => m.map (· ++ [d])
  else m

/-- The message so far after the drives `ps`. -/
def messageAfter (m : Option (List Byte)) (ps : List PortIn) : Option (List Byte) := ps.foldl messageStep m

/-- The accumulator is the checksum of the message so far, where there is one. -/
def HoldsChecksumOf (m : Option (List Byte)) (s : State) : Prop :=
  ∀ bs, m = some bs → s.engine.acc = some (crc8 bs)

/-- A drive of the ports together with the consumer it comes from. The engine cannot tell consumers apart
(`60_exceptions.md` R77); the name is for claims only. Log entry 10 (DESIGN CHOICE, safe). -/
structure SourcedDrive where
  consumer : Nat
  ports : PortIn
  deriving DecidableEq, Repr

/-- Premise (2) of `70_reset_and_hazards.md` R92: every command of the run comes from consumer `x`. A reset is no
command. -/
def SingleSource (x : Nat) (ts : List SourcedDrive) : Prop :=
  ∀ t ∈ ts, t.ports.accepts = true → t.consumer = x

/-- What consumer `x` itself knows of a run: its own drives, and the resets. -/
def ownDrives (x : Nat) (ts : List SourcedDrive) : List PortIn :=
  (ts.filter fun t => t.ports.rst || t.consumer == x).map (·.ports)

end Sys2Proof.Machine
end

