-- ==== Sys2Proof/Certificates/Slice0/Obligations.lean ====
section
/-! DEFINITION. The statements for the provers. Each docstring names the rule of the spec it formalises; a clause that is
the model's own choice says so and names its log entry. -/

open Sys2Proof Sys2Proof.Machine

/-! ### The command word -/

/-- Decoding the encoding of any operation gives it back, with its byte at every value, as a word and as a number, and
the word belongs to the operation's own row (`30_encoding.md` sections 1 to 3). -/
def Obligations.DecodeOfEncodeGivesTheOperationBack : Prop :=
  ∀ i : Instr, i.wf = true →
    decode (encode i) = i ∧ decodeNumber (encode i).toNat = .ok i ∧ i.row.spells (encode i) = true

/-- `30_encoding.md` R33, R34: the two rows as printed, exactly one of them spells each of the 512 words, the decoder
gives that row's operation, and `Exec` is as written there. -/
def Obligations.EveryCommandWordSpellsExactlyOneOperation : Prop :=
  opcodeMap = [⟨"UPDATE", 0x000, 0x100⟩, ⟨"INIT", 0x100, 0x100⟩] ∧
  ∀ c : CmdWord,
    (c.toNat ≤ 0x0FF → decode c = .update (BitVec.ofNat 8 c.toNat)) ∧
    (0x100 ≤ c.toNat → decode c = .init) ∧
    (decode c).row ∈ opcodeMap ∧
    (∀ r ∈ opcodeMap, r.spells c = true ↔ r = (decode c).row) ∧
    (∀ a : Byte, execWord a c = if c.getLsbD 8 then 0xFF else byteStep a (c.setWidth 8))

/-- `30_encoding.md` R35: all 256 words with `op = 1` decode to `INIT` and have exactly the effect of `0x100` in every
state, and the assembler emits only `0x100`. -/
def Obligations.InitIgnoresItsDataBits : Prop :=
  (∀ c : CmdWord, c.getLsbD 8 = true →
    decode c = .init ∧
    ∀ (s : State) (rest : List PortIn),
      step (s.withInputs (present c :: rest)) = step (s.withInputs (present 0x100 :: rest))) ∧
  encode .init = 0x100 ∧
  ∀ (ls : List Line) (c : CmdWord), c ∈ assemble ls → c.getLsbD 8 = true → c = 0x100

/-- `30_encoding.md` R32, `20_memory.md` R20: the byte of an `UPDATE` is `cmd[7:0]` as it stands, bit for bit. -/
def Obligations.UpdateByteIsTheLowEightCommandBits : Prop :=
  (∀ d : Byte, decode (commandWord 0 d) = .update d ∧ (commandWord 0 d).toNat = d.toNat) ∧
  ∀ (c : CmdWord) (d : Byte), decode c = .update d → ∀ j < 8, d.getLsbD j = c.getLsbD j

/-- A command written as a number is one from 0 to 511 (`30_encoding.md` R31). That a larger number is refused by name
is the model's reading (log entry 6). -/
def Obligations.NumbersUpTo511AreTheCommands : Prop :=
  ∀ n : Nat,
    (n ≤ 511 → decodeNumber n = .ok (decode (BitVec.ofNat 9 n))) ∧
    (511 < n → decodeNumber n = .error .notNineBits)

/-- Words written out from `30_encoding.md` R30 and the rows of `95_test_vectors.md` section 2.7. -/
def Obligations.WrittenOutWordsDecode : Prop :=
  decode 0b0_0000_0000#9 = .update 0x00 ∧ decode 0b0_1111_1111#9 = .update 0xFF ∧
  decode 0b0_1101_0001#9 = .update 0xD1 ∧ decode 0b0_1000_0000#9 = .update 0x80 ∧
  decode 0b1_0000_0000#9 = .init ∧ decode 0b1_0000_0001#9 = .init ∧ decode 0b1_1111_1111#9 = .init

/-! ### Steps -/

/-- A step runs the decoded operation: where the next drive has `rst = 0` and `cmd_valid = 1`, the step is the operation's
meaning with that drive taken (`10_state.md` R19). -/
def Obligations.AcceptedCommandRunsItsOperation : Prop :=
  ∀ (s : State) (p : PortIn) (rest : List PortIn),
    s.inputs = p :: rest → p.rst = false → p.cmdValid = true →
    p.accepts = true ∧ step s = exec (decode p.cmd) (s.withInputs rest)

/-- Presenting an operation's word makes the very next step run exactly that operation (the model's `withFetchWord`, log
entry 5, over `10_state.md` R19). -/
def Obligations.PresentedWordIsTheNextOperationRun : Prop :=
  ∀ (s : State) (i : Instr), i.wf = true →
    decodeTableWord 16 (encode i).toNat = some i ∧
    step (s.withFetchWord 16 (encode i).toNat) = exec i s

/-- `70_reset_and_hazards.md` R80: while `rst = 1` the engine loads `0xFF` whatever its state, power-up included, and
whatever is on `cmd`; `cmd_ready` is low and nothing is accepted; the result is that of an `INIT`; when `rst` falls
`cmd_ready` is high and `crc = 0xFF`. -/
def Obligations.ResetLoadsFFWhateverElseIsPresented : Prop :=
  (∀ (s : State) (p : PortIn) (rest : List PortIn), s.inputs = p :: rest → p.rst = true →
    p.cmdReady = false ∧ p.accepts = false ∧
    step s = .next { engine := State.reset.engine, inputs := rest } ∧
    step s = exec .init (s.withInputs rest)) ∧
  State.reset.engine.acc = some 0xFF ∧ State.reset.crc = some 0xFF ∧
  ∀ q : PortIn, q.rst = false → q.cmdReady = true

/-- An idle cycle: nothing is accepted and `acc` keeps its value, whatever the wires of `cmd` carry (`10_state.md` R19,
`30_encoding.md` R36). -/
def Obligations.IdleEdgeKeepsTheAccumulator : Prop :=
  ∀ (s : State) (p : PortIn) (rest : List PortIn),
    s.inputs = p :: rest → p.rst = false → p.cmdValid = false →
    p.accepts = false ∧ step s = .next { engine := s.engine, inputs := rest }

/-- With nothing presented the step leaves everything as it is. The model's choice (log entry 3), after "it may wait any
number of cycles between commands, and `acc` keeps its value for as long as it waits" (`10_state.md` section 4). -/
def Obligations.NothingPresentedNothingChanges : Prop :=
  ∀ s : State, s.inputs = [] → step s = .next s

/-- `40_checksum_ops.md` R42: `INIT` completes in every state, power-up included, leaves `acc = 0xFF` and changes nothing
else; its words; two in a row equal one. -/
def Obligations.InitLoadsFFInEveryState : Prop :=
  (∀ s : State, exec .init s = .next { engine := { acc := some 0xFF }, inputs := s.inputs }) ∧
  (∀ s : State, s.engine.acc = some 0xFF → exec .init s = .next s) ∧
  (∀ s t : State, exec .init s = .next t → exec .init t = .next t) ∧
  (∀ c : CmdWord, decode c = .init ↔ 0x100 ≤ c.toNat) ∧ encode .init = 0x100

/-- `UPDATE d` completes wherever `acc` has a value, for every value and every byte, leaves `ByteStep(acc, d)` and changes
nothing else (`40_checksum_ops.md` section 2); with the rule's worked example. -/
def Obligations.UpdateAbsorbsItsByte : Prop :=
  (∀ (s : State) (a d : Byte), s.engine.acc = some a →
    exec (.update d) s = .next { engine := { acc := some (byteStep a d) }, inputs := s.inputs }) ∧
  (∀ (c : CmdWord) (d : Byte), decode c = .update d ↔ c.toNat = d.toNat) ∧
  byteStep 0xFF 0xBE = 0x0C ∧ byteStep 0x0C 0xEF = 0x92

/-- Which accumulators a zero byte, and the byte that equals the accumulator, leave as they were. `40_checksum_ops.md`
section 2 says of `d = 0x00` that only `acc = 0x00` keeps its value; section 5 and the table make it `0xEF` too, and the
pseudocode decides (log entry 11). -/
def Obligations.ZeroByteKeepsExactlyTwoAccumulators : Prop :=
  (∀ a : Byte, byteStep a 0x00 = a ↔ a = 0x00 ∨ a = 0xEF) ∧
  (∀ a : Byte, byteStep a a = 0x00) ∧
  ∀ d : Byte, byteStep 0xFF d = 0xFF ↔ d = 0x03

/-- `UPDATE` and sampling `crc` where `acc` has no value have no defined result, and the model refuses both by name
(`93_implementation_defined.md` section 2, U1; which of refusing and faulting is the model's choice, log entry 4). -/
def Obligations.WithoutAValueUpdateAndSamplingAreRefused : Prop :=
  ∀ s : State, s.engine.acc = none →
    (∀ d : Byte, exec (.update d) s = .refused .updateWithoutValue) ∧
    s.sampleCrc = .error .sampleWithoutValue ∧ s.crc = none

/-- `10_state.md` R13: the state after reset, which is the state after an `INIT`, and the state after power-up. That an
`UPDATE` from power-up is refused, where the spec lets a model refuse or fault, is the model's choice (log entry 4). -/
def Obligations.ResetAndPowerUpValues : Prop :=
  State.reset.engine.acc = some 0xFF ∧
  State.reset.sampleCrc = .ok 0xFF ∧ State.reset.crc = some (crc8 []) ∧
  (∀ s : State, ∃ t, exec .init s = .next t ∧ t.engine = State.reset.engine) ∧
  (∀ d : Byte, ∃ t, exec (.update d) State.reset = .next t ∧ t.crc = some (crc8 [d])) ∧
  State.powerUp.engine.acc = none ∧
  (∀ d : Byte, exec (.update d) State.powerUp = .refused .updateWithoutValue) ∧
  exec .init State.powerUp = .next State.reset

/-- The frame of both operations: the engine's one register is the destination, and nothing else in the state changes
(`40_checksum_ops.md` section 2, "Writes: `acc`"). -/
def Obligations.OperationsWriteNothingButTheAccumulator : Prop :=
  ∀ (i : Instr) (s t : State), exec i s = .next t →
    t = { s with engine := t.engine } ∧ t.engine.acc.isSome = true

/-- The outcomes of a step are those of the table of `60_exceptions.md` section 7, by row. In the row of an `UPDATE` while
`acc` has no value the table says "the model refuses or faults"; that the model refuses is its own choice (log entry
4). -/
def Obligations.StepHasTheOutcomesOfTheTable : Prop :=
  ∀ (s : State) (p : PortIn) (rest : List PortIn), s.inputs = p :: rest →
    (p.rst = true → step s = .next { engine := { acc := some 0xFF }, inputs := rest }) ∧
    (p.rst = false → p.cmdValid = false → step s = .next { engine := s.engine, inputs := rest }) ∧
    (p.rst = false → p.cmdValid = true →
      (decode p.cmd = .init → step s = .next { engine := { acc := some 0xFF }, inputs := rest }) ∧
      (∀ d, decode p.cmd = .update d →
        (∀ a, s.engine.acc = some a →
          step s = .next { engine := { acc := some (byteStep a d) }, inputs := rest }) ∧
        (s.engine.acc = none → step s = .refused .updateWithoutValue))) ∧
    (∀ a, s.engine.acc = some a → s.sampleCrc = .ok a)

/-- A step gives no next state exactly where an `UPDATE` is accepted and `acc` has no value; then it refuses, and it never
faults (`60_exceptions.md` sections 1 and 7). Refusing there rather than faulting is the model's choice (log entry 4), and
a type of faults without constructors is its reading of "No run of the engine ends in a fault that the hardware itself
raises" (log entry 7). -/
def Obligations.StepStopsOnlyOnUpdateWithoutAValue : Prop :=
  ∀ s : State,
    (∀ f, step s ≠ .fault f) ∧
    (∀ r, step s = .refused r ↔
      r = .updateWithoutValue ∧ s.engine.acc = none ∧
      ∃ p rest d, s.inputs = p :: rest ∧ p.accepts = true ∧ decode p.cmd = .update d)

/-- `30_encoding.md` R34: no command word traps, none is refused and none is a hint: wherever `acc` has a value, each of
the 512 words is accepted, runs, and has the effect `Exec` gives it. -/
def Obligations.NoCommandWordIsRefused : Prop :=
  ∀ (c : CmdWord) (s : State) (a : Byte) (rest : List PortIn),
    s.engine.acc = some a → s.inputs = present c :: rest →
    step s = .next { engine := { acc := some (execWord a c) }, inputs := rest }

/-! ### Invariants of every step -/

/-- The state after reset has a value in `acc`. -/
def Obligations.ResetStateIsInitialised : Prop := Initialised State.reset

/-- Once `acc` has a value every step keeps it so (`70_reset_and_hazards.md` section 2). -/
def Obligations.EveryStepKeepsInitialised : Prop :=
  ∀ s t : State, Initialised s → step s = .next t → Initialised t

/-- The engine is never stuck (`60_exceptions.md` section 7): from every state in which `acc` has a value, any number of
steps completes, each taking one drive off what the consumer presents as long as one is left. That further steps, with
nothing presented, complete and change nothing is the model's choice (log entry 3). -/
def Obligations.InitialisedMachineNeverStops : Prop :=
  ∀ (n : Nat) (s : State), Initialised s →
    ∃ t, run n s = .next t ∧ Initialised t ∧ t.inputs = s.inputs.drop n

/-- Nothing but `INIT`, `UPDATE` and reset writes the accumulator (`10_state.md` section 1). -/
def Obligations.OnlyCommandsAndResetChangeTheAccumulator : Prop :=
  ∀ s t : State, step s = .next t → t.engine ≠ s.engine →
    ∃ p rest, s.inputs = p :: rest ∧ (p.rst = true ∨ p.accepts = true)

/-- If the accumulator is the checksum of the message so far, it is so after every step too, with the message as that
step's drive makes it (`00_scope.md` sections 3 and 6). -/
def Obligations.EveryStepKeepsTheChecksumOfTheMessage : Prop :=
  ∀ (m : Option (List Byte)) (s t : State) (p : PortIn) (rest : List PortIn),
    HoldsChecksumOf m s → s.inputs = p :: rest → step s = .next t → HoldsChecksumOf (messageStep m p) t

/-! ### Runs -/

/-- Whatever the consumer drives (commands, resets, idle edges, in any order), once an `INIT` or a reset is among it, a
completed run leaves in `crc` the checksum of the message since the last of them; and every run completes that starts
with a reset or an `INIT`, or from a state where `acc` has a value (`70_reset_and_hazards.md` sections 3 and 5). -/
def Obligations.CrcIsTheChecksumOfTheMessageSoFar : Prop :=
  ∀ (ps : List PortIn) (s : State),
    (∀ t bs, runOn ps s = .next t → messageAfter none ps = some bs →
      t.crc = some (crc8 bs) ∧ t.inputs = s.inputs) ∧
    (InitialisedRun ps s → ∃ t, runOn ps s = .next t)

/-- The premise `Initialised` of `70_reset_and_hazards.md` section 5 is needed: a run that has an event and does not meet
it starts with an `UPDATE` while `acc` has no value, and is refused (refusing rather than faulting is the model's choice,
log entry 4). -/
def Obligations.UninitialisedRunIsRefused : Prop :=
  ∀ (ps : List PortIn) (s : State), ¬ InitialisedRun ps s → (∃ p ∈ ps, p.isEvent = true) →
    runOn ps s = .refused .updateWithoutValue

/-- `41_message_protocol.md` R60: one `INIT`, in any of its spellings, and then the bytes in order, with idle edges anywhere between, leave
`CRC8` of the bytes in `crc`, from every state and for every length; the empty message gives `0xFF`; directly after a
reset the `INIT` may be left out. -/
def Obligations.TransactionLeavesTheChecksumOfItsBytes : Prop :=
  crc8 [] = 0xFF ∧
  ∀ (bs : List Byte) (ps : List PortIn) (s : State),
    (∀ p ∈ ps, p.rst = false) →
    ((ps.filter PortIn.accepts).map (fun p => decode p.cmd) = (Line.msg bs).expand →
      ∃ t, runOn ps s = .next t ∧ t.crc = some (crc8 bs) ∧ t.inputs = s.inputs) ∧
    (s.engine = State.reset.engine →
      (ps.filter PortIn.accepts).map (fun p => decode p.cmd) = (Line.append bs).expand →
      ∃ t, runOn ps s = .next t ∧ t.crc = some (crc8 bs) ∧ t.inputs = s.inputs)

/-- `40_checksum_ops.md` R45: `Run`, the sense in which it computes `CRC8`, and the machine's runs of commands agreeing
with it. -/
def Obligations.RunRealisesTheReferenceFunction : Prop :=
  (∀ a : Byte, runWords a [] = a) ∧
  (∀ (a : Byte) (c : CmdWord) (cs : List CmdWord), runWords a (c :: cs) = runWords (execWord a c) cs) ∧
  (∀ (a : Byte) (bs : List Byte), runWords a ([0x100] ++ bs.map (fun b => b.setWidth 9)) = crc8 bs) ∧
  (∀ bs : List Byte, runWords 0xFF (bs.map (fun b => b.setWidth 9)) = crc8 bs) ∧
  (∀ (s : State) (a : Byte) (cs : List CmdWord), s.engine.acc = some a →
    runOn (cs.map present) s = .next { engine := { acc := some (runWords a cs) }, inputs := s.inputs })

/-- Commands take effect in the order they are accepted, each complete before the next: a run of one stretch of drives
and then another is the run of the two joined (`20_memory.md` section 3). -/
def Obligations.RunsComposeInOrder : Prop :=
  ∀ (ps qs : List PortIn) (s t : State), runOn ps s = .next t →
    t.inputs = s.inputs ∧ runOn (ps ++ qs) s = runOn qs t

/-- `00_scope.md` R8: the next accumulator is a function of the accumulator and the accepted command alone, and `crc` of
the accumulator alone. Two machines with the same accumulator that are given the same commands and resets, with idle
edges and what `cmd` carries there differing freely, and with different drives still to come, show the same `crc`. -/
def Obligations.ChecksumDependsOnAccumulatorAndCommandsAlone : Prop :=
  ∀ (ps qs : List PortIn) (s t : State), s.engine = t.engine →
    (ps.filter (fun p => p.rst || p.cmdValid)).map (fun p => if p.rst then none else some p.cmd) =
      (qs.filter (fun p => p.rst || p.cmdValid)).map (fun p => if p.rst then none else some p.cmd) →
    crcAfter (runOn ps s) = crcAfter (runOn qs t)

/-- `20_memory.md` R24: what is idempotent and what changes `acc`. Observing and idle edges change nothing, `INIT` and
reset done twice equal done once, and for each accumulator exactly one byte of `UPDATE` leaves it. -/
def Obligations.IdempotencyOfTheActions : Prop :=
  (∀ (s : State) (js : List CmdWord), runOn (js.map idle) s = .next s) ∧
  (∀ (s : State) (c : CmdWord), c.getLsbD 8 = true →
    runOn [present c, present c] s = runOn [present c] s ∧
    runOn [present c] s = .next { engine := { acc := some 0xFF }, inputs := s.inputs }) ∧
  (∀ (s : State) (p : PortIn), p.rst = true →
    runOn [p, p] s = runOn [p] s ∧ runOn [p] s = .next { engine := { acc := some 0xFF }, inputs := s.inputs }) ∧
  (∀ (s : State) (a : Byte), s.engine.acc = some a → ∃! d : Byte, exec (.update d) s = .next s) ∧
  ∃ a d : Byte, byteStep (byteStep a d) d ≠ byteStep a d

/-! ### The functions -/

/-- `40_checksum_ops.md` R40: `BitStep`, in bits and with truncation before or after the XOR, and its corner cases. -/
def Obligations.BitStepShiftsAndXorsThePolynomial : Prop :=
  (∀ a : Byte, bitStep a =
    if a.getLsbD 7 then ((a.setWidth 9 <<< 1).setWidth 8) ^^^ 0x31 else (a.setWidth 9 <<< 1).setWidth 8) ∧
  (∀ a : Byte, (a.setWidth 9 <<< 1).setWidth 8 = a.extractLsb' 0 7 ++ 0#1) ∧
  (∀ a : Byte, a.getLsbD 7 = true → bitStep a = ((a.setWidth 9 <<< 1) ^^^ 0x031).setWidth 8) ∧
  bitStep 0x00 = 0x00 ∧ bitStep 0x80 = 0x31 ∧ bitStep 0x7F = 0xFE ∧ bitStep 0xFF = 0xCF ∧
  bitStep 0x40 = 0x80 ∧ bitStep 0xC0 = 0xB1 ∧ bitStep 0x01 = 0x02 ∧ bitStep 0x81 = 0x33

/-- `40_checksum_ops.md` R41: one XOR of the byte and then exactly eight `BitStep`s, the corner cases, and the inner
values of the worked example. -/
def Obligations.ByteStepIsOneXorAndEightBitSteps : Prop :=
  (∀ a d : Byte, byteStep a d =
    bitStep (bitStep (bitStep (bitStep (bitStep (bitStep (bitStep (bitStep (a ^^^ d))))))))) ∧
  (∀ a : Byte, byteStep a a = 0x00) ∧
  byteStep 0x00 0x00 = 0x00 ∧ byteStep 0xFF 0x00 = 0xAC ∧ byteStep 0xFF 0xFF = 0x00 ∧
  byteStep 0x00 0x01 = 0x31 ∧ byteStep 0x00 0x80 = 0x7A ∧ byteStep 0x00 0xFF = 0xAC ∧
  (List.range 9).map (fun n => bitSteps n (0xFF ^^^ 0xBE)) =
    [0x41, 0x82, 0x35, 0x6A, 0xD4, 0x99, 0x03, 0x06, 0x0C] ∧
  byteStep 0xFF 0xBE = 0x0C

/-- `40_checksum_ops.md` R43, R44: `Fold` and `CRC8`, with the corner cases and the worked example. -/
def Obligations.Crc8FoldsTheBytesFromFF : Prop :=
  (∀ a : Byte, fold a [] = a) ∧
  (∀ (a b : Byte) (rest : List Byte), fold a (b :: rest) = fold (byteStep a b) rest) ∧
  (∀ bs : List Byte, crc8 bs = fold 0xFF bs) ∧
  crc8 [] = 0xFF ∧ crc8 [0xFF] = 0x00 ∧ crc8 [0x00] = 0xAC ∧
  crc8 [0xBE, 0xEF] = byteStep (byteStep 0xFF 0xBE) 0xEF ∧
  byteStep (byteStep 0xFF 0xBE) 0xEF = byteStep 0x0C 0xEF ∧ byteStep 0x0C 0xEF = 0x92

/-- `40_checksum_ops.md` R48: the table form and the combinational form equal `ByteStep` for all 65536 pairs; the listed
table is `T`; the images of the single bits, and `T[c]` as the XOR of the images of the bits set in `c`. -/
def Obligations.TableAndXorFormsEqualByteStep : Prop :=
  (∀ a d : Byte, byteStepTable a d = byteStep a d ∧ byteStepXors a d = byteStep a d ∧
    byteStep a d = byteStep 0x00 (a ^^^ d)) ∧
  crcTable.length = 256 ∧ (∀ c : Byte, crcTable[c.toNat]? = some (byteStep 0x00 c)) ∧
  (List.range 8).map (fun j => byteStep 0x00 (1#8 <<< j)) =
    [0x31, 0x62, 0xC4, 0xB9, 0x43, 0x86, 0x3D, 0x7A] ∧
  ∀ c : Byte, byteStep 0x00 c =
    (List.range 8).foldl (fun x j => if c.getLsbD j then x ^^^ byteStep 0x00 (1#8 <<< j) else x) 0

/-- `ByteStep` is a bijection in each argument, and what follows: any accumulator is reached from any other by one
`UPDATE`, and exactly one byte leaves an accumulator as it is (`40_checksum_ops.md` section 5). -/
def Obligations.ByteStepIsABijectionInEachArgument : Prop :=
  (∀ d : Byte, Function.Bijective (fun a : Byte => byteStep a d)) ∧
  (∀ a : Byte, Function.Bijective (fun d : Byte => byteStep a d)) ∧
  (∀ c : Byte, byteStep 0x00 c = 0x00 ↔ c = 0x00) ∧
  (∀ a : Byte, ∃! d : Byte, byteStep a d = a) ∧
  ∀ (s : State) (a v : Byte), s.engine.acc = some a →
    ∃! d : Byte, exec (.update d) s = .next { engine := { acc := some v }, inputs := s.inputs }

/-- `T` has the fixed points `0x00` and `0xEF` and otherwise two cycles of 127 values: every other value comes back after
127 applications and not before, and some two of them are on different cycles (`40_checksum_ops.md` section 5). -/
def Obligations.TableHasTwoFixedPointsAndTwoCyclesOf127 : Prop :=
  (∀ c : Byte, byteStep 0x00 c = c ↔ c = 0x00 ∨ c = 0xEF) ∧
  (∀ c : Byte, (byteStep 0x00)^[127] c = c) ∧
  (∀ (c : Byte) (k : Nat), c ≠ 0x00 → c ≠ 0xEF → 0 < k → k < 127 → (byteStep 0x00)^[k] c ≠ c) ∧
  ∃ x y : Byte, ∀ c : Byte, c ≠ 0x00 → c ≠ 0xEF →
    ((∃ k, (byteStep 0x00)^[k] x = c) ∨ ∃ k, (byteStep 0x00)^[k] y = c) ∧
    ¬ ((∃ k, (byteStep 0x00)^[k] x = c) ∧ ∃ k, (byteStep 0x00)^[k] y = c)

/-- `40_checksum_ops.md` R53: the incremental law; pauses anywhere in a message change nothing (the machine with the idle
edges left out does the same); and only an `INIT` or a reset breaks a message: drives without either, whatever pauses
they hold, continue it with the bytes of their `UPDATE`s. -/
def Obligations.MessageMayBePresentedInPieces : Prop :=
  (∀ (a : Byte) (xs ys : List Byte), fold a (xs ++ ys) = fold (fold a xs) ys) ∧
  (∀ xs ys : List Byte, crc8 (xs ++ ys) = fold (crc8 xs) ys) ∧
  (∀ (ps : List PortIn) (s : State), runOn ps s = runOn (ps.filter (fun p => p.rst || p.cmdValid)) s) ∧
  (∀ (xs ys : List Byte) (s : State),
    crcAfter (runProgram [.msg xs, .append ys] s) = some (crc8 (xs ++ ys))) ∧
  ∀ (ps : List PortIn) (s : State) (a : Byte), s.engine.acc = some a →
    (∀ p ∈ ps, p.rst = false ∧ (p.cmdValid = true → decode p.cmd ≠ .init)) →
    crcAfter (runOn ps s) = some (fold a ((ps.filter PortIn.accepts).map (fun p => p.cmd.setWidth 8)))

/-- `40_checksum_ops.md` R54, the residue law: absorbing a byte after a message leaves `0x00` exactly when the byte is the
message's checksum. -/
def Obligations.ResidueIsZeroExactlyForTheChecksum : Prop :=
  (∀ a c : Byte, byteStep a c = 0x00 ↔ c = a) ∧
  ∀ (m : List Byte) (c : Byte), crc8 (m ++ [c]) = 0x00 ↔ c = crc8 m

/-- `40_checksum_ops.md` R55: linearity, of `T` and of whole messages of equal length. -/
def Obligations.ChecksumIsLinear : Prop :=
  (∀ x y : Byte, byteStep 0x00 (x ^^^ y) = byteStep 0x00 x ^^^ byteStep 0x00 y) ∧
  (∀ (a b : Byte) (xs ys : List Byte), xs.length = ys.length →
    fold (a ^^^ b) (xorBytes xs ys) = fold a xs ^^^ fold b ys) ∧
  ∀ xs ys : List Byte, xs.length = ys.length → crc8 xs ^^^ crc8 ys = fold 0x00 (xorBytes xs ys)

/-- Inverting any one bit of any message changes the checksum (`40_checksum_ops.md` section 5, item 3 of the rule on
single-bit errors). -/
def Obligations.SingleBitFlipChangesTheChecksum : Prop :=
  ∀ (m : List Byte) (i j : Nat), i < m.length → j < 8 → crc8 (invertBit m i j) ≠ crc8 m

/-- Two inverted bits go unnoticed exactly when they are a multiple of 127 bit positions apart (`40_checksum_ops.md`
section 5, item 4 of the rule on single-bit errors). -/
def Obligations.TwoBitFlipsUnnoticedExactlyAtMultiplesOf127 : Prop :=
  ∀ (m : List Byte) (p q : Nat), p < q → q < 8 * m.length →
    (crc8 (invertMessageBits m [p, q]) = crc8 m ↔ 127 ∣ q - p)

/-- Every change of an odd number of bits is noticed (`40_checksum_ops.md` section 5, item 4 of the rule on single-bit
errors). -/
def Obligations.OddNumberOfBitFlipsChangesTheChecksum : Prop :=
  ∀ (m : List Byte) (ps : List Nat), ps.Nodup → (∀ p ∈ ps, p < 8 * m.length) → ps.length % 2 = 1 →
    crc8 (invertMessageBits m ps) ≠ crc8 m

/-- Every change confined to a window of 8 consecutive bits is noticed (`40_checksum_ops.md` section 5, item 4 of the rule
on single-bit errors). -/
def Obligations.FlipsWithinEightBitsChangeTheChecksum : Prop :=
  ∀ (m : List Byte) (ps : List Nat) (w : Nat), ps ≠ [] → ps.Nodup →
    (∀ p ∈ ps, w ≤ p ∧ p < w + 8 ∧ p < 8 * m.length) → crc8 (invertMessageBits m ps) ≠ crc8 m

/-- `40_checksum_ops.md` R57: the checksums of runs of equal bytes; zero bytes in front change a checksum in general
(always, but for a multiple of 127 of them); no frame that is all zero, checksum byte included, is valid, at any length. -/
def Obligations.ChecksumsOfRunsOfEqualBytes : Prop :=
  (List.range 9).map (fun n => crc8 (List.replicate n 0x00)) =
    [0xFF, 0xAC, 0x81, 0x4B, 0xD7, 0x93, 0x6A, 0x60, 0xBB] ∧
  (List.range 9).map (fun n => crc8 (List.replicate n 0xFF)) =
    [0xFF, 0x00, 0xAC, 0x2D, 0x66, 0xB1, 0x22, 0x48, 0x28] ∧
  (∀ (m : List Byte) (n : Nat), crc8 (List.replicate n 0x00 ++ m) = crc8 m ↔ 127 ∣ n) ∧
  ∀ n : Nat, crc8 (List.replicate n 0x00) ≠ 0x00

/-- The order of the bytes matters: exchanging two bytes changes this checksum (`20_memory.md` section 1). -/
def Obligations.ChecksumDependsOnByteOrder : Prop :=
  crc8 [0x01, 0x02] = 0x17 ∧ crc8 [0x02, 0x01] = 0x69 ∧ ∀ b : Byte, crc8 [b, b] = crc8 [b, b].reverse

/-! ### Consumers -/

/-- `30_encoding.md` R38: the command words of the pseudo-operations, and what each is used for. -/
def Obligations.PseudoOperationsExpandAsListed : Prop :=
  (∀ bs : List Byte, assemble [.msg bs] = 0x100 :: bs.map (fun b => b.setWidth 9)) ∧
  (∀ bs : List Byte, assemble [.append bs] = bs.map (fun b => b.setWidth 9)) ∧
  (∀ c : Byte, assemble [.chk c] = [c.setWidth 9] ∧ assemble [.chk c] = assemble [.update c]) ∧
  assemble [.msg []] = assemble [.init] ∧
  (∀ (bs : List Byte) (s : State), crcAfter (runProgram [.msg bs] s) = some (crc8 bs)) ∧
  (∀ (a : Byte) (bs : List Byte) (s : State), s.engine.acc = some a →
    crcAfter (runProgram [.append bs] s) = some (fold a bs)) ∧
  ∀ (m : List Byte) (c : Byte) (s : State),
    crcAfter (runProgram [.msg m, .chk c] s) = some 0x00 ↔ c = crc8 m

/-- The text of every line reads back as that line, and a `;` after it starts a comment whatever follows
(`30_encoding.md` section 5; the spacing is the model's choice, log entry 9). -/
def Obligations.LineTextReadsBack : Prop :=
  ∀ (l : Line) (comment : List Char),
    parseLine (printLine l) = some l ∧
    parseLine (printLine l ++ ';' :: comment) = some l ∧
    parseLine (printLine l ++ ' ' :: ';' :: comment) = some l

/-- The compare method and the residue method give the same verdict, from every state, and it is whether the received
byte is the checksum (`41_message_protocol.md` section 3). -/
def Obligations.CompareAndResidueMethodsAgree : Prop :=
  ∀ (m : List Byte) (c : Byte) (s : State),
    compareCheck m c s = residueCheck m c s ∧ (compareCheck m c s = true ↔ c = crc8 m)

/-- `41_message_protocol.md` R61: a sender that runs the transaction over its bytes and appends `crc` is accepted by a
receiver that checks by either method. -/
def Obligations.AppendedChecksumIsAccepted : Prop :=
  ∀ (m : List Byte) (s s' : State), ∃ c : Byte,
    crcAfter (runProgram [.msg m] s) = some c ∧ protect m = m ++ [c] ∧
    compareCheck m c s' = true ∧ residueCheck m c s' = true

/-- `41_message_protocol.md` R66: after `MSG m` and `CHK c`, `crc = 0x00` exactly when `c` is the checksum, whatever the
message; after a valid check the accumulator is `0x00` and not `0xFF`, so the next group needs its `INIT`. -/
def Obligations.ResidueCheckLeavesZeroForAValidGroup : Prop :=
  ∀ (m : List Byte) (c : Byte) (s : State), ∃ t,
    runProgram [.msg m, .chk c] s = .next t ∧
    (t.crc = some 0x00 ↔ c = crc8 m) ∧
    (c = crc8 m → t.engine.acc = some 0x00 ∧ t.engine.acc ≠ some 0xFF ∧
      ∀ m2 : List Byte,
        crcAfter (runProgram [.append m2] t) = some (fold 0x00 m2) ∧
        crcAfter (runProgram [.msg m2] t) = some (crc8 m2))

/-- `41_message_protocol.md` R67: groups and frames that are all `0x00` or all `0xFF`, checksum byte included, fail. -/
def Obligations.StuckLineFramesAreNeverValid : Prop :=
  crc8 [0x00, 0x00] = 0x81 ∧ crc8 (List.replicate 6 0x00) = 0x6A ∧
  crc8 [0xFF, 0xFF] = 0xAC ∧ crc8 (List.replicate 6 0xFF) = 0x22 ∧
  (∀ b : Byte, b = 0x00 ∨ b = 0xFF →
    familyAValid (Vector.replicate 7 b) = false ∧ familyBGroupValid (Vector.replicate 3 b) = false) ∧
  ∀ s : State, ∀ b : Byte, b = 0x00 ∨ b = 0xFF →
    residueCheck (List.replicate 6 b) b s = false ∧ residueCheck (List.replicate 2 b) b s = false

/-- The groups the source checks, checked with the engine by either method: a Family-A frame, a Family-B group or status
read, and a Family-B response whose two groups are independent (`41_message_protocol.md` section 2). -/
def Obligations.EngineChecksTheFramesOfBothFamilies : Prop :=
  (∀ (f : Vector Byte 7) (s : State),
    compareCheck [f[0], f[1], f[2], f[3], f[4], f[5]] f[6] s = familyAValid f ∧
    residueCheck [f[0], f[1], f[2], f[3], f[4], f[5]] f[6] s = familyAValid f) ∧
  (∀ (g : Vector Byte 3) (s : State),
    compareCheck [g[0], g[1]] g[2] s = familyBGroupValid g ∧
    residueCheck [g[0], g[1]] g[2] s = familyBGroupValid g) ∧
  ∀ (r : Vector Byte 6) (s : State),
    (crcAfter (runProgram [.msg [r[0], r[1]], .chk r[2]] s) = some 0x00 ↔
      familyBGroupValid (familyBGroups r).1 = true) ∧
    (crcAfter (runProgram [.msg [r[0], r[1]], .chk r[2], .msg [r[3], r[4]], .chk r[5]] s) = some 0x00 ↔
      familyBGroupValid (familyBGroups r).2 = true)

/-- Of the 256 possible checksum bytes exactly one passes for a given message (`41_message_protocol.md` section 3). -/
def Obligations.ExactlyOneChecksumBytePasses : Prop :=
  ∀ (m : List Byte) (s : State), ∃! c : Byte, residueCheck m c s = true

/-- `70_reset_and_hazards.md` R85: what `crc` is when a message is absorbed with no `INIT` before it, by what came
before, and the rule's example. -/
def Obligations.MissingInitCarriesTheAccumulatorOver : Prop :=
  (∀ (a : Byte) (m2 : List Byte) (s : State), s.engine.acc = some a →
    crcAfter (runProgram [.append m2] s) = some (fold a m2)) ∧
  (∀ (m1 m2 : List Byte) (s : State),
    crcAfter (runProgram [.msg m1] s) = some (crc8 m1) ∧
    crcAfter (runProgram [.msg m1, .append m2] s) = some (crc8 (m1 ++ m2)) ∧
    crcAfter (runProgram [.msg m1, .chk (crc8 m1)] s) = some 0x00 ∧
    crcAfter (runProgram [.msg m1, .chk (crc8 m1), .append m2] s) = some (fold 0x00 m2) ∧
    crcAfter (runProgram [.init, .append m2] s) = some (crc8 m2)) ∧
  (∀ (m2 : List Byte) (s : State) (p : PortIn), p.rst = true →
    crcAfter (runOn (p :: (assemble [.append m2]).map present) s) = some (crc8 m2)) ∧
  crc8 [0x12, 0x34] = 0x37 ∧ crc8 [0xBE, 0xEF] = 0x92 ∧ crc8 ([0xBE, 0xEF] ++ [0x12, 0x34]) = 0x22 ∧
  fold 0x00 [0x12, 0x34] = 0xB6

/-- Where a run meets both premises of `70_reset_and_hazards.md` section 5 (it starts with a reset or an `INIT`, or from a
state where `acc` has a value; every command comes from one consumer), it completes and `crc` is the checksum of that
consumer's own message so far. The consumer's name on a drive is the model's (log entry 10). -/
def Obligations.SingleSourceRunGivesTheConsumersOwnChecksum : Prop :=
  ∀ (x : Nat) (ts : List SourcedDrive) (s : State) (bs : List Byte),
    InitialisedRun (ts.map (·.ports)) s → SingleSource x ts → messageAfter none (ownDrives x ts) = some bs →
    ∃ t, runOn (ts.map (·.ports)) s = .next t ∧ t.crc = some (crc8 bs)

/-- The engine is busy at least one cycle for each command, finitely long, and independently of the data
(`70_reset_and_hazards.md` section 4; cycles are outside the step, log entry 8). -/
def Obligations.BusyTimeIsAtLeastOneCycleAndDataIndependent : Prop :=
  (∀ i : Instr, 1 ≤ busyCycles i) ∧
  (∀ d d' : Byte, busyCycles (.update d) = busyCycles (.update d')) ∧
  (∀ is : List Instr, is.length ≤ busyCyclesAll is) ∧
  ∀ bs bs' : List Byte, bs.length = bs'.length →
    busyCyclesAll ((Line.msg bs).expand) = busyCyclesAll ((Line.msg bs').expand)
end

