-- ==== Sys2Proof/Laws/Decode.lean ====
section
/-! SUPPORT. The fields of a command word, taken from the word that is made of them. -/

namespace Sys2Proof

@[simp] theorem opField_commandWord (op : BitVec 1) (d : Byte) : opField (commandWord op d) = op := by
  apply BitVec.eq_of_getLsbD_eq
  intro i hi
  simp only [opField, commandWord, BitVec.getLsbD_extractLsb', BitVec.getLsbD_append]
  simp [hi]

@[simp] theorem dataField_commandWord (op : BitVec 1) (d : Byte) : dataField (commandWord op d) = d := by
  apply BitVec.eq_of_getLsbD_eq
  intro i hi
  simp only [dataField, commandWord, BitVec.getLsbD_extractLsb', BitVec.getLsbD_append]
  simp [hi]

/-- Which words are `INIT`, by the field alone. -/
theorem decode_eq_init_iff (c : CmdWord) : decode c = .init ↔ opField c = 1 := by
  unfold decode
  split <;> simp_all

/-- Which words are `UPDATE d`, by the two fields. -/
theorem decode_eq_update_iff (c : CmdWord) (d : Byte) :
    decode c = .update d ↔ opField c ≠ 1 ∧ dataField c = d := by
  unfold decode
  split <;> simp_all

/-- A word is its two fields joined. -/
theorem commandWord_fields (c : CmdWord) : commandWord (opField c) (dataField c) = c := by
  apply BitVec.eq_of_getLsbD_eq
  intro i hi
  simp only [commandWord, opField, dataField, BitVec.getLsbD_append, BitVec.getLsbD_extractLsb']
  by_cases h : i < 8
  · simp [h]
  · obtain rfl : i = 8 := by omega
    simp

end Sys2Proof
end

