-- ==== Sys2Proof/Laws/Ops.lean ====
section
/-! SUPPORT. The arithmetic of one byte: what a shift with truncation is, and that an iteration is linear for XOR. -/

namespace Sys2Proof.Machine

/-- Shifting into nine bits and truncating is a shift in eight. -/
theorem trunc8_shiftLeftOne (a : Byte) : trunc8 (shiftLeftOne a) = a <<< 1 := by
  apply BitVec.eq_of_getLsbD_eq
  intro i hi
  simp only [trunc8, shiftLeftOne, BitVec.getLsbD_extractLsb', BitVec.getLsbD_append, BitVec.getLsbD_shiftLeft]
  by_cases h : i < 1 <;> simp [h, hi]

theorem highBit_xor (a b : Byte) : highBit (a ^^^ b) = (highBit a ^^ highBit b) := by
  simp [highBit]

/-- One iteration: shift, and XOR `POLY` in when the high bit was set. -/
theorem bitStep_eq (a : Byte) : bitStep a = (a <<< 1) ^^^ (if highBit a then poly else 0) := by
  unfold bitStep
  split <;> simp_all [trunc8_shiftLeftOne]

@[simp] theorem bitStep_zero : bitStep 0#8 = 0#8 := rfl

/-- What an iteration XORs in is linear in the bit tested. -/
theorem polyIf_xor (p q : Bool) :
    (if p ^^ q then poly else 0) = (if p then poly else 0) ^^^ (if q then poly else 0) := by
  cases p <;> cases q <;> rfl

/-- An iteration is linear for XOR. -/
theorem bitStep_xor (a b : Byte) : bitStep (a ^^^ b) = bitStep a ^^^ bitStep b := by
  rw [bitStep_eq, bitStep_eq, bitStep_eq, highBit_xor, polyIf_xor, BitVec.shiftLeft_xor_distrib]
  ac_rfl

@[simp] theorem bitSteps_zero_steps (a : Byte) : bitSteps 0 a = a := rfl

theorem bitSteps_succ (n : Nat) (a : Byte) : bitSteps (n + 1) a = bitSteps n (bitStep a) := rfl

@[simp] theorem bitSteps_zero (n : Nat) : bitSteps n 0#8 = 0#8 := by
  induction n with
  | zero => rfl
  | succ n ih => simp [bitSteps_succ, ih]

/-- Any number of iterations is linear for XOR. -/
theorem bitSteps_xor (n : Nat) (a b : Byte) : bitSteps n (a ^^^ b) = bitSteps n a ^^^ bitSteps n b := by
  induction n generalizing a b with
  | zero => rfl
  | succ n ih => simp [bitSteps_succ, bitStep_xor, ih]

/-- Absorbing a byte depends on the XOR of accumulator and byte alone. -/
theorem byteStep_eq_bitSteps (a d : Byte) : byteStep a d = bitSteps iter (a ^^^ d) := rfl

/-! ### The ports -/

/-- A command is accepted exactly where there is no reset and one is presented. -/
theorem PortIn.accepts_eq (p : PortIn) : p.accepts = (!p.rst && p.cmdValid) := by
  cases p with
  | mk r v c => cases r <;> cases v <;> rfl

@[simp] theorem present_accepts (c : CmdWord) : (present c).accepts = true := rfl
@[simp] theorem idle_accepts (c : CmdWord) : (idle c).accepts = false := rfl

end Sys2Proof.Machine
end

