-- ==== Sys2Proof/Laws/PerInstr.lean ====
section
/-! SUPPORT. Statements for all operations, one lemma for each constructor (LAWS.json). -/

namespace Sys2Proof.Laws.OpBit

/-- The word of an operation carries the operation's own `op` (`30_encoding.md` R30), and its data bits are the byte of
an `UPDATE` and zero in the canonical `INIT` (R35). -/
def Statement (i : Instr) : Prop :=
  opField (encode i) = (match i with | .update _ => 0 | .init => 1) ∧
  dataField (encode i) = (match i with | .update d => d | .init => 0)

theorem update (d : Byte) : Statement (.update d) := by
  simp [Statement, encode]

theorem init : Statement .init := by
  simp [Statement, encode]

end Sys2Proof.Laws.OpBit
end

