-- ==== Sys2Proof/Laws/State.lean ====
section
/-! SUPPORT. One lemma for each field and each update of the state, so that no proof unfolds a record update. -/

namespace Sys2Proof.Machine

variable (s : State) (v : Byte) (ps qs : List PortIn)

@[simp] theorem State.writeAcc_acc : (s.writeAcc v).engine.acc = some v := rfl
@[simp] theorem State.writeAcc_engine : (s.writeAcc v).engine = { acc := some v } := rfl
@[simp] theorem State.writeAcc_inputs : (s.writeAcc v).inputs = s.inputs := rfl
@[simp] theorem State.writeAcc_crc : (s.writeAcc v).crc = some v := rfl
@[simp] theorem State.writeAcc_writeAcc (w : Byte) : (s.writeAcc v).writeAcc w = s.writeAcc w := rfl

@[simp] theorem State.withInputs_engine : (s.withInputs ps).engine = s.engine := rfl
@[simp] theorem State.withInputs_inputs : (s.withInputs ps).inputs = ps := rfl
@[simp] theorem State.withInputs_crc : (s.withInputs ps).crc = s.crc := rfl
@[simp] theorem State.withInputs_withInputs : (s.withInputs ps).withInputs qs = s.withInputs qs := rfl
@[simp] theorem State.withInputs_self : s.withInputs s.inputs = s := rfl
@[simp] theorem State.withInputs_writeAcc : (s.withInputs ps).writeAcc v = (s.writeAcc v).withInputs ps := rfl

@[simp] theorem State.resetEngine_engine : s.resetEngine.engine = State.reset.engine := rfl
@[simp] theorem State.resetEngine_inputs : s.resetEngine.inputs = s.inputs := rfl

@[simp] theorem State.reset_acc : State.reset.engine.acc = some resetValue := rfl
@[simp] theorem State.reset_inputs : State.reset.inputs = [] := rfl
@[simp] theorem State.powerUp_acc : State.powerUp.engine.acc = none := rfl
@[simp] theorem State.powerUp_inputs : State.powerUp.inputs = [] := rfl

@[simp] theorem present_rst (c : CmdWord) : (present c).rst = false := rfl
@[simp] theorem present_cmdValid (c : CmdWord) : (present c).cmdValid = true := rfl
@[simp] theorem present_cmd (c : CmdWord) : (present c).cmd = c := rfl
@[simp] theorem idle_rst (c : CmdWord) : (idle c).rst = false := rfl
@[simp] theorem idle_cmdValid (c : CmdWord) : (idle c).cmdValid = false := rfl

/-- A state is its engine and its inputs. -/
theorem State.eq_of_parts {s t : State} (he : s.engine = t.engine) (hi : s.inputs = t.inputs) : s = t := by
  cases s
  cases t
  simp_all

end Sys2Proof.Machine
end

