-- ==== Sys2Proof/Laws/Step.lean ====
section
/-! SUPPORT. Everything an operation, one edge and one step can do, said once. -/

namespace Sys2Proof.Machine

variable {s t : State} {p : PortIn} {i : Instr}

/-- Reading the old accumulator either runs on with it or refuses. -/
theorem withOldAcc_next {k : Byte → Host.Outcome State Fault Refusal} (h : withOldAcc s k = .next t) :
    ∃ a, s.engine.acc = some a ∧ k a = .next t := by
  unfold withOldAcc at h
  split at h
  · exact ⟨_, ‹_›, h⟩
  · cases h

/-- An operation that completes is an `INIT`, or an `UPDATE` of an accumulator that has a value. -/
theorem exec_next (h : exec i s = .next t) :
    (i = .init ∧ t = s.writeAcc initValue) ∨
    (∃ d a, i = .update d ∧ s.engine.acc = some a ∧ t = s.writeAcc (byteStep a d)) := by
  cases i with
  | init =>
    cases h
    exact .inl ⟨rfl, rfl⟩
  | update d =>
    obtain ⟨a, ha, hk⟩ := withOldAcc_next h
    cases hk
    exact .inr ⟨d, a, rfl, ha, rfl⟩

/-- No operation reads or writes the inputs, so they may be exchanged around it. -/
theorem exec_withInputs (i : Instr) (s : State) (ps : List PortIn) :
    exec i (s.withInputs ps) =
      match exec i s with
      | .next t => .next (t.withInputs ps)
      | .fault f => .fault f
      | .refused r => .refused r := by
  cases i with
  | init => rfl
  | update d =>
    obtain ⟨⟨acc⟩, ins⟩ := s
    cases acc <;> rfl

theorem react_reset (h : p.rst = true) : react p s = .next s.resetEngine := by simp [react, h]

theorem react_command (h : p.accepts = true) : react p s = exec (decode p.cmd) s := by
  have hr : p.rst = false := by
    simp only [PortIn.accepts_eq, Bool.and_eq_true, Bool.not_eq_true'] at h
    exact h.1
  simp [react, h, hr]

theorem react_idle (hr : p.rst = false) (hv : p.cmdValid = false) : react p s = .next s := by
  simp [react, PortIn.accepts_eq, hr, hv]

/-- One edge is a reset, an accepted command or idle. -/
theorem react_next (h : react p s = .next t) :
    (p.rst = true ∧ t = s.resetEngine) ∨
    (p.accepts = true ∧ exec (decode p.cmd) s = .next t) ∨
    (p.rst = false ∧ p.accepts = false ∧ t = s) := by
  unfold react at h
  split at h
  · cases h
    exact .inl ⟨‹_›, rfl⟩
  · split at h
    · exact .inr (.inl ⟨‹_›, h⟩)
    · cases h
      exact .inr (.inr ⟨by simpa using ‹¬p.rst = true›, by simpa using ‹¬p.accepts = true›, rfl⟩)

/-- No edge reads or writes the drives still to come. -/
theorem react_withInputs (p : PortIn) (s : State) (ps : List PortIn) :
    react p (s.withInputs ps) =
      match react p s with
      | .next t => .next (t.withInputs ps)
      | .fault f => .fault f
      | .refused r => .refused r := by
  unfold react
  split
  · rfl
  · split
    · exact exec_withInputs _ _ _
    · rfl

theorem react_next_inputs (h : react p s = .next t) : t.inputs = s.inputs := by
  obtain ⟨-, rfl⟩ | ⟨-, he⟩ | ⟨-, -, rfl⟩ := react_next h
  · rfl
  · obtain ⟨-, rfl⟩ | ⟨d, a, -, -, rfl⟩ := exec_next he <;> rfl
  · rfl

theorem step_nil (h : s.inputs = []) : step s = wait s := by simp [step, h]

theorem step_cons {rest : List PortIn} (h : s.inputs = p :: rest) : step s = react p (s.withInputs rest) := by
  simp [step, h]

/-- Everything a step that answers a next state can do. -/
theorem step_next (h : step s = .next t) :
    (s.inputs = [] ∧ t = s) ∨
    (∃ p rest, s.inputs = p :: rest ∧ react p (s.withInputs rest) = .next t) := by
  unfold step at h
  split at h
  · cases h
    exact .inl ⟨‹_›, rfl⟩
  · exact .inr ⟨_, _, ‹_›, h⟩

end Sys2Proof.Machine
end

