-- ==== Sys2Proof/Laws/Run.lean ====
section
/-! SUPPORT. Runs, taken apart one drive at a time. -/

namespace Sys2Proof.Machine

@[simp] theorem fold_nil (a : Byte) : fold a [] = a := rfl
@[simp] theorem fold_cons (a b : Byte) (bs : List Byte) : fold a (b :: bs) = fold (byteStep a b) bs := rfl
@[simp] theorem runWords_nil (a : Byte) : runWords a [] = a := rfl
@[simp] theorem runWords_cons (a : Byte) (c : CmdWord) (cs : List CmdWord) :
    runWords a (c :: cs) = runWords (execWord a c) cs := rfl

@[simp] theorem run_zero (s : State) : run 0 s = .next s := rfl

theorem run_succ (n : Nat) (s : State) :
    run (n + 1) s =
      match step s with
      | .next t => run n t
      | .fault f => .fault f
      | .refused r => .refused r := rfl

@[simp] theorem runOn_nil (s : State) : runOn [] s = .next s := rfl

/-- A run of at least one drive: the engine reacts to the first, and the run goes on from there. -/
theorem runOn_cons (p : PortIn) (ps : List PortIn) (s : State) :
    runOn (p :: ps) s =
      match react p s with
      | .next t => runOn ps t
      | .fault f => .fault f
      | .refused r => .refused r := by
  unfold runOn
  rw [List.length_cons, run_succ,
    step_cons (p := p) (rest := ps ++ s.inputs) (by simp), State.withInputs_withInputs, react_withInputs]
  cases h : react p s with
  | next t => simp [react_next_inputs h]
  | fault f => rfl
  | refused r => rfl

/-! ### How a run starts -/

@[simp] theorem startsFresh_nil : startsFresh [] = false := rfl

/-- The first event decides. -/
theorem startsFresh_event {p : PortIn} (h : p.isEvent = true) (ps : List PortIn) :
    startsFresh (p :: ps) = p.startsMessage := by simp [startsFresh, h]

/-- An idle edge decides nothing. -/
theorem startsFresh_idle {p : PortIn} (h : p.isEvent = false) (ps : List PortIn) :
    startsFresh (p :: ps) = startsFresh ps := by simp [startsFresh, h]

/-- A reset and an `INIT` complete in every state and leave a value in `acc`. -/
theorem react_startsMessage {p : PortIn} (h : p.startsMessage = true) (s : State) :
    ∃ t, react p s = .next t ∧ Initialised t := by
  by_cases hr : p.rst = true
  · exact ⟨_, react_reset hr, rfl⟩
  · obtain ⟨ha, hd⟩ : p.accepts = true ∧ decode p.cmd = .init := by
      simpa [PortIn.startsMessage, hr] using h
    exact ⟨s.writeAcc initValue, by rw [react_command ha, hd]; rfl, rfl⟩

/-- What is no event changes nothing. -/
theorem react_not_event {p : PortIn} (h : p.isEvent = false) (s : State) : react p s = .next s := by
  simp only [PortIn.isEvent, Bool.or_eq_false_iff] at h
  simp [react, h.1, h.2]

/-- The result of a completed run. -/
@[simp] theorem crcAfter_next (t : State) : crcAfter (.next t) = t.crc := rfl

end Sys2Proof.Machine
end

