-- ==== Sys2Proof/Tests/Slice0.lean ====
section
/-! SUPPORT. Tests against the spec's own tables and worked examples, the smoke test of WellFormed, and for every
statement with hypotheses a witness that meets them. -/

namespace Sys2Proof.Tests

open Sys2Proof.Machine

/-- A machine whose accumulator is `a`, with `ps` still to be driven. -/
def engineWith (a : Option Byte) (ps : List PortIn) : State := { engine := { acc := a }, inputs := ps }

/-- A drive with `rst = 1` and the command `c` presented at the same edge. -/
def resetWith (c : CmdWord) : PortIn := { rst := true, cmdValid := true, cmd := c }

/-- The name under which an outcome is refused. -/
def refusalOf : Host.Outcome State Fault Refusal → Option Refusal
  | .refused r => some r
  | .next _ => none
  | .fault _ => none

/-- How many drives are left after an outcome. -/
def leftAfter : Host.Outcome State Fault Refusal → Option Nat
  | .next t => some t.inputs.length
  | .fault _ => none
  | .refused _ => none

/-! ### WellFormed: the one check that can fail refuses an ill-formed number (`30_encoding.md` R31) -/

theorem test_wf_refuses_number_512 : commandNumberWf 512 = false := by decide
theorem test_wf_takes_number_511 : commandNumberWf 511 = true := by decide
theorem test_wf_takes_every_operation : ∀ d : Byte, (Instr.update d).wf = true ∧ Instr.init.wf = true := by decide

/-! ### Decoding: words written out bit by bit (`30_encoding.md` R30, `95_test_vectors.md` section 2.7) -/

theorem test_decode_update_D1 : decode 0b0_1101_0001#9 = .update 0xD1 := by decide
theorem test_decode_update_FF : decode 0b0_1111_1111#9 = .update 0xFF := by decide
theorem test_decode_init : decode 0b1_0000_0000#9 = .init := by decide
theorem test_decode_init_data_ignored : decode 0b1_1010_0101#9 = .init := by decide
theorem test_decode_number_512 :
    (match decodeNumber 512 with | .ok _ => false | .error e => e == .notNineBits) = true := by decide
theorem test_table_word_init : decodeTableWord 16 0x1FF = some .init := by decide
theorem test_encode_update_BE : encode (.update 0xBE) = 0x0BE := by decide

/-! ### The arithmetic (`40_checksum_ops.md` R40, `95_test_vectors.md` sections 2.1, 2.3, 5) -/

theorem test_bitStep_tests_before_the_shift : bitStep 0x40 = 0x80 ∧ bitStep 0xC0 = 0xB1 := by decide
theorem test_crc8_BE_EF : crc8 [0xBE, 0xEF] = 0x92 := by decide +kernel
theorem test_crc8_digits :
    crc8 [0x31, 0x32, 0x33, 0x34, 0x35, 0x36, 0x37, 0x38, 0x39] = 0xF7 := by decide +kernel

/-! ### Steps (`95_test_vectors.md` sections 2.2, 4) -/

theorem test_step_update :
    crcAfter (step (engineWith (some 0xFF) [present 0x0BE])) = some 0x0C := by decide
theorem test_step_update_of_acc :
    crcAfter (step (engineWith (some 0x92) [present 0x092, idle 0])) = some 0x00 ∧
    leftAfter (step (engineWith (some 0x92) [present 0x092, idle 0])) = some 1 := by decide
theorem test_step_init_ignores_data :
    crcAfter (step (engineWith (some 0x12) [present 0x112])) = some 0xFF := by decide
theorem test_step_init_after_power_up : crcAfter (step (engineWith none [present 0x100])) = some 0xFF := by decide
theorem test_step_update_after_power_up :
    refusalOf (step (engineWith none [present 0x000])) = some .updateWithoutValue := by decide
theorem test_step_reset_wins :
    crcAfter (step (engineWith (some 0x37) [resetWith 0x0BE])) = some 0xFF ∧
    leftAfter (step (engineWith (some 0x37) [resetWith 0x0BE])) = some 0 := by decide
theorem test_step_idle_ignores_cmd : crcAfter (step (engineWith (some 0x37) [idle 0x1FF])) = some 0x37 := by decide
theorem test_fetch_word_runs :
    crcAfter (step (State.reset.withFetchWord 16 0x0FF)) = some 0x00 := by decide
theorem test_sample_after_reset :
    (match State.reset.sampleCrc with | .ok a => a == 0xFF | .error _ => false) = true := by decide

/-! ### Notation (`30_encoding.md` R37, R38, `95_test_vectors.md` P1) -/

theorem test_parse_update : parseLine ['U', 'P', 'D', 'A', 'T', 'E', ' ', '0', 'x', '2', 'A'] = some (.update 0x2A) := by
  decide +kernel
theorem test_parse_refuses_unknown : parseLine ['N', 'O', 'P'] = none := by decide +kernel
theorem test_assemble_group : assemble [.msg [0x66, 0x66], .chk 0x93] = [0x100, 0x066, 0x066, 0x093] := by decide

/-! ### Frames and interleaving (`95_test_vectors.md` P1, P2, P6) -/

theorem test_familyA_frame : familyAValid #v[0x00, 0x03, 0x06, 0x2A, 0x0D, 0x27, 0xD1] = true := by decide +kernel
theorem test_familyA_frame_bad : familyAValid #v[0x00, 0x03, 0x06, 0x2A, 0x0D, 0x27, 0xD0] = false := by
  decide +kernel
/-- Consumer 0 reads `BD` and not `92` where consumer 1 comes between (P6): the premise of a single source is needed. -/
theorem test_interleaved_consumers :
    crcAfter (runOn ([0x100, 0x0BE, 0x100, 0x012, 0x034, 0x0EF].map present) State.reset) = some 0xBD := by
  decide +kernel

/-! ### Witnesses: for every statement with hypotheses, terms that meet them -/

theorem witness_DecodeOfEncodeGivesTheOperationBack :
    (Instr.update 0x00).wf = true ∧ (Instr.update 0xFF).wf = true ∧ Instr.init.wf = true := by decide
theorem witness_EveryCommandWordSpellsExactlyOneOperation :
    (0x0FF#9).toNat ≤ 0x0FF ∧ 0x100 ≤ (0x100#9).toNat ∧ initRow ∈ opcodeMap ∧ updateRow ∈ opcodeMap := by decide
theorem witness_InitIgnoresItsDataBits :
    (0x100#9).getLsbD 8 = true ∧ (0x1FF#9).getLsbD 8 = true ∧ 0x100#9 ∈ assemble [.init] := by decide
theorem witness_UpdateByteIsTheLowEightCommandBits : decode 0x081 = .update 0x81 ∧ 0 < 8 ∧ 7 < 8 := by decide
theorem witness_NumbersUpTo511AreTheCommands : 511 ≤ 511 ∧ 511 < 512 := by decide
theorem witness_AcceptedCommandRunsItsOperation :
    (engineWith (some 0) [present 0x0BE]).inputs = present 0x0BE :: [] ∧ (present 0x0BE).rst = false ∧
    (present 0x0BE).cmdValid = true := by decide
theorem witness_PresentedWordIsTheNextOperationRun :
    (Instr.update 0xFF).wf = true ∧ Instr.init.wf = true := by decide
theorem witness_ResetLoadsFFWhateverElseIsPresented :
    (engineWith none [resetWith 0x0BE]).inputs = resetWith 0x0BE :: [] ∧ (resetWith 0x0BE).rst = true ∧
    (present 0x0BE).rst = false := by decide
theorem witness_IdleEdgeKeepsTheAccumulator :
    (engineWith (some 7) [idle 0x1FF]).inputs = idle 0x1FF :: [] ∧ (idle 0x1FF).rst = false ∧
    (idle 0x1FF).cmdValid = false := by decide
theorem witness_NothingPresentedNothingChanges : State.reset.inputs = [] := by decide
theorem witness_InitLoadsFFInEveryState :
    (engineWith (some 0xFF) []).engine.acc = some 0xFF ∧
    exec .init (engineWith none []) = .next (engineWith (some 0xFF) []) := ⟨rfl, rfl⟩
theorem witness_UpdateAbsorbsItsByte : (engineWith (some 0xEF) []).engine.acc = some 0xEF := by decide
theorem witness_WithoutAValueUpdateAndSamplingAreRefused : State.powerUp.engine.acc = none := by decide
theorem witness_OperationsWriteNothingButTheAccumulator :
    exec .init State.powerUp = .next (engineWith (some 0xFF) []) ∧
    exec (.update 0xFF) State.reset = .next (engineWith (some 0x00) []) := ⟨rfl, rfl⟩
theorem witness_StepHasTheOutcomesOfTheTable :
    (engineWith (some 1) [resetWith 0]).inputs = resetWith 0 :: [] ∧ (resetWith 0).rst = true ∧
    (idle 0).rst = false ∧ (idle 0).cmdValid = false ∧
    (present 0x100).rst = false ∧ (present 0x100).cmdValid = true ∧ decode (present 0x100).cmd = .init ∧
    decode (present 0x0FF).cmd = .update 0xFF ∧ (engineWith none []).engine.acc = none := by decide
theorem witness_StepStopsOnlyOnUpdateWithoutAValue :
    (engineWith none [present 0x001]).engine.acc = none ∧ (present 0x001).accepts = true ∧
    decode (present 0x001).cmd = .update 0x01 := by decide
theorem witness_NoCommandWordIsRefused :
    (engineWith (some 0) [present 0x1FF]).engine.acc = some 0 ∧
    (engineWith (some 0) [present 0x1FF]).inputs = present 0x1FF :: [] := by decide
theorem witness_EveryStepKeepsInitialised :
    Initialised (engineWith (some 0x92) [present 0x092]) ∧
    step (engineWith (some 0x92) [present 0x092]) = .next (engineWith (some 0x00) []) := ⟨rfl, rfl⟩
theorem witness_InitialisedMachineNeverStops : Initialised (engineWith (some 0) [present 0, idle 0]) := rfl
theorem witness_OnlyCommandsAndResetChangeTheAccumulator :
    step (engineWith (some 0x92) [present 0x092]) = .next (engineWith (some 0x00) []) ∧
    (engineWith (some 0x00) []).engine ≠ (engineWith (some 0x92) [present 0x092]).engine := ⟨rfl, by decide⟩
theorem witness_EveryStepKeepsTheChecksumOfTheMessage :
    HoldsChecksumOf (some []) (engineWith (some 0xFF) [present 0x0FF]) ∧
    step (engineWith (some 0xFF) [present 0x0FF]) = .next (engineWith (some 0x00) []) ∧
    messageStep (some []) (present 0x0FF) = some [0xFF] :=
  ⟨fun _ h => by cases h; rfl, rfl, by decide⟩
theorem witness_CrcIsTheChecksumOfTheMessageSoFar :
    messageAfter none [present 0x1A5, idle 0x0BE, present 0x0FF] = some [0xFF] ∧
    runOn [present 0x1A5, idle 0x0BE, present 0x0FF] State.powerUp = .next (engineWith (some 0x00) []) ∧
    InitialisedRun [] State.reset ∧
    InitialisedRun [idle 0x0BE, present 0x1A5, present 0x0FF] State.powerUp ∧
    InitialisedRun [resetWith 0x0BE, present 0x0FF] State.powerUp :=
  ⟨by decide, rfl, .inr rfl, .inl rfl, .inl rfl⟩
theorem witness_UninitialisedRunIsRefused :
    ¬ InitialisedRun [idle 0x100, present 0x000, present 0x100] State.powerUp ∧
    ∃ p ∈ [idle 0x100, present 0x000, present 0x100], p.isEvent = true :=
  ⟨by unfold InitialisedRun Initialised; decide, by decide⟩
theorem witness_TransactionLeavesTheChecksumOfItsBytes :
    (∀ p ∈ [idle 0x1FF, present 0x1A5, idle 0x001, present 0x0BE], p.rst = false) ∧
    ([idle 0x1FF, present 0x1A5, idle 0x001, present 0x0BE].filter PortIn.accepts).map (fun p => decode p.cmd) =
      (Line.msg [0xBE]).expand ∧
    ([idle 0x1FF, present 0x0BE].filter PortIn.accepts).map (fun p => decode p.cmd) = (Line.append [0xBE]).expand ∧
    State.reset.engine = (engineWith (some 0xFF) []).engine := by decide
theorem witness_RunRealisesTheReferenceFunction : (engineWith (some 0x5A) []).engine.acc = some 0x5A := by decide
theorem witness_RunsComposeInOrder :
    runOn [present 0x100] State.powerUp = .next (engineWith (some 0xFF) []) := rfl
theorem witness_ChecksumDependsOnAccumulatorAndCommandsAlone :
    (engineWith (some 1) []).engine = (engineWith (some 1) [idle 0]).engine ∧
    ([idle 3, present 0x0BE, resetWith 0x001].filter (fun p => p.rst || p.cmdValid)).map
        (fun p => if p.rst then none else some p.cmd) =
      ([present 0x0BE, idle 9, resetWith 0x1FF].filter (fun p => p.rst || p.cmdValid)).map
        (fun p => if p.rst then none else some p.cmd) := by decide
theorem witness_IdempotencyOfTheActions :
    (0x1A5#9).getLsbD 8 = true ∧ (resetWith 0x0BE).rst = true ∧
    (engineWith (some 0xFF) []).engine.acc = some 0xFF := by decide
theorem witness_BitStepShiftsAndXorsThePolynomial : (0x80#8).getLsbD 7 = true := by decide
theorem witness_ByteStepIsABijectionInEachArgument : (engineWith (some 0) []).engine.acc = some 0 := by decide
theorem witness_TableHasTwoFixedPointsAndTwoCyclesOf127 :
    (0x01#8) ≠ 0x00 ∧ (0x01#8) ≠ 0xEF ∧ 0 < 126 ∧ 126 < 127 := by decide
theorem witness_MessageMayBePresentedInPieces :
    (engineWith (some 0) []).engine.acc = some 0 ∧
    ∀ p ∈ [idle 0x100, present 0x0FF], p.rst = false ∧ (p.cmdValid = true → decode p.cmd ≠ .init) := by decide
theorem witness_ChecksumIsLinear : ([0xBE, 0xEF] : List Byte).length = ([0x12, 0x34] : List Byte).length := by decide
theorem witness_SingleBitFlipChangesTheChecksum : 1 < ([0xBE, 0xEF] : List Byte).length ∧ 7 < 8 := by decide
/-- Positions 0 and 127 of a 17-byte message, and 0 and 126 (`95_test_vectors.md` section 2.6). -/
theorem witness_TwoBitFlipsUnnoticedExactlyAtMultiplesOf127 :
    0 < 127 ∧ 127 < 8 * (List.replicate 17 (0x00 : Byte)).length ∧ 127 ∣ 127 - 0 ∧ ¬ 127 ∣ 126 - 0 := by decide
theorem witness_OddNumberOfBitFlipsChangesTheChecksum :
    ([0, 5, 15] : List Nat).Nodup ∧ (∀ p ∈ [0, 5, 15], p < 8 * ([0xBE, 0xEF] : List Byte).length) ∧
    [0, 5, 15].length % 2 = 1 := by decide
theorem witness_FlipsWithinEightBitsChangeTheChecksum :
    ([4, 11] : List Nat) ≠ [] ∧ ([4, 11] : List Nat).Nodup ∧
    ∀ p ∈ [4, 11], 4 ≤ p ∧ p < 4 + 8 ∧ p < 8 * ([0xBE, 0xEF] : List Byte).length := by decide
theorem witness_PseudoOperationsExpandAsListed : (engineWith (some 0x92) []).engine.acc = some 0x92 := by decide
theorem witness_ResidueCheckLeavesZeroForAValidGroup : (0x92 : Byte) = crc8 [0xBE, 0xEF] := by decide +kernel
theorem witness_StuckLineFramesAreNeverValid : (0x00 : Byte) = 0x00 ∧ (0xFF : Byte) = 0xFF := by decide
theorem witness_MissingInitCarriesTheAccumulatorOver :
    (engineWith (some 0x92) []).engine.acc = some 0x92 ∧ (resetWith 0).rst = true := by decide
theorem witness_SingleSourceRunGivesTheConsumersOwnChecksum :
    InitialisedRun ([⟨1, present 0x100⟩, ⟨2, idle 0x0BE⟩, ⟨1, present 0x0FF⟩].map SourcedDrive.ports) State.powerUp ∧
    InitialisedRun [] State.reset ∧
    SingleSource 1 [⟨1, present 0x100⟩, ⟨2, idle 0x0BE⟩, ⟨1, present 0x0FF⟩] ∧
    messageAfter none (ownDrives 1 [⟨1, present 0x100⟩, ⟨2, idle 0x0BE⟩, ⟨1, present 0x0FF⟩]) = some [0xFF] :=
  ⟨.inl rfl, .inr rfl, by unfold SingleSource; decide, by decide⟩
theorem witness_BusyTimeIsAtLeastOneCycleAndDataIndependent :
    ([0xBE] : List Byte).length = ([0x12] : List Byte).length := by decide

end Sys2Proof.Tests
end

section
/-! PROOFS. Runs and their events: a run is the run of its events alone (`70_reset_and_hazards.md` R91), and the drives
still to come do not reach `crc` (`00_scope.md` R8). -/

namespace Sys2Proof.Machine

/-! ### The events of a run -/

/-- What an event tells the engine: `none` for a reset, the command word for an accepted command. -/
def PortIn.event (p : PortIn) : Option CmdWord := if p.rst then none else some p.cmd

/-- The events of a run, in order: idle edges dropped, and of a reset only that it is one. -/
def eventsOf (ps : List PortIn) : List (Option CmdWord) :=
  (ps.filter fun p => p.rst || p.cmdValid).map PortIn.event

/-- A drive of the ports that is the event and carries nothing else. -/
def PortIn.ofEvent : Option CmdWord → PortIn
  | none => { rst := true, cmdValid := false, cmd := 0 }
  | some c => present c

/-- An event is a reset or a presented command, since `cmd_ready` is high wherever `rst` is low. -/
theorem PortIn.isEvent_eq (p : PortIn) : p.isEvent = (p.rst || p.cmdValid) := by
  cases h : p.rst <;> simp [PortIn.isEvent, PortIn.accepts_eq, h]

@[simp] theorem eventsOf_nil : eventsOf [] = [] := rfl

theorem eventsOf_cons_event {p : PortIn} (h : p.isEvent = true) (ps : List PortIn) :
    eventsOf (p :: ps) = p.event :: eventsOf ps := by
  rw [PortIn.isEvent_eq] at h
  simp only [eventsOf, List.filter_cons, h, if_true, List.map_cons]

theorem eventsOf_cons_idle {p : PortIn} (h : p.isEvent = false) (ps : List PortIn) :
    eventsOf (p :: ps) = eventsOf ps := by
  rw [PortIn.isEvent_eq] at h
  simp [eventsOf, h]

/-- The engine reacts to what an event says and to nothing else the ports carry. -/
theorem react_ofEvent {p : PortIn} (h : p.isEvent = true) (s : State) :
    react (PortIn.ofEvent p.event) s = react p s := by
  cases hr : p.rst with
  | true =>
    have he : p.event = none := by simp [PortIn.event, hr]
    rw [he, react_reset hr, react_reset rfl]
  | false =>
    have he : p.event = some p.cmd := by simp [PortIn.event, hr]
    have ha : p.accepts = true := by simpa [PortIn.isEvent, hr] using h
    rw [he, react_command ha, PortIn.ofEvent, react_command (present_accepts _), present_cmd]

/-- A run is the run of its events, each presented with nothing beside it. -/
theorem runOn_ofEvent_eventsOf (ps : List PortIn) (s : State) :
    runOn ((eventsOf ps).map PortIn.ofEvent) s = runOn ps s := by
  induction ps generalizing s with
  | nil => rfl
  | cons p ps ih =>
    cases h : p.isEvent with
    | false => rw [eventsOf_cons_idle h, ih, runOn_cons, react_not_event h]
    | true =>
      rw [eventsOf_cons_event h, List.map_cons, runOn_cons, react_ofEvent h, runOn_cons]
      simp only [ih]

/-- Runs with the same events are the same run. -/
theorem runOn_congr_eventsOf {ps qs : List PortIn} (h : eventsOf ps = eventsOf qs) (s : State) :
    runOn ps s = runOn qs s := by
  rw [← runOn_ofEvent_eventsOf ps, h, runOn_ofEvent_eventsOf]

/-! ### The drives still to come -/

/-- No run reads or writes the drives that come after it. -/
theorem runOn_withInputs (ps : List PortIn) (s : State) (rest : List PortIn) :
    runOn ps (s.withInputs rest) =
      match runOn ps s with
      | .next t => .next (t.withInputs rest)
      | .fault f => .fault f
      | .refused r => .refused r := by
  induction ps generalizing s with
  | nil => rfl
  | cons p ps ih =>
    rw [runOn_cons, runOn_cons, react_withInputs]
    cases react p s with
    | next t => exact ih t
    | fault f => rfl
    | refused r => rfl

/-- The result of a run depends on the engine it starts from, not on the drives still to come. -/
theorem crcAfter_runOn_congr {s t : State} (h : s.engine = t.engine) (ps : List PortIn) :
    crcAfter (runOn ps s) = crcAfter (runOn ps t) := by
  have hs : s = t.withInputs s.inputs := State.eq_of_parts h rfl
  rw [hs, runOn_withInputs]
  cases runOn ps t <;> rfl

/-- Settles O30: both runs are the runs of their events, which are the same, from the same engine. -/
theorem checksumDependsOnAccumulatorAndCommandsAlone :
    Obligations.ChecksumDependsOnAccumulatorAndCommandsAlone := by
  intro ps qs s t hengine hevents
  have hev : eventsOf ps = eventsOf qs := hevents
  calc crcAfter (runOn ps s)
      = crcAfter (runOn qs s) := by rw [runOn_congr_eventsOf hev]
    _ = crcAfter (runOn qs t) := crcAfter_runOn_congr hengine qs

end Sys2Proof.Machine
end

section
/-! PROOFS. What is idempotent and what changes `acc` (`20_memory.md` R24): idle edges, resets and `INIT`s as runs, and
`ByteStep` as a bijection in each argument, which leaves exactly one byte that keeps the accumulator. -/

namespace Sys2Proof.Machine

/-! ### `ByteStep` is a bijection in each argument -/

/-- The bit that an iteration drops comes back as bit 0, since the shift clears bit 0 and `POLY` sets it. -/
theorem bitStep_getLsbD_zero (a : Byte) : (bitStep a).getLsbD 0 = highBit a := by
  rw [bitStep_eq]
  cases highBit a <;> simp [poly]

/-- An iteration loses nothing: bit 0 of the result tells the high bit, and then the shift tells the other seven. -/
theorem bitStep_injective : Function.Injective bitStep := by
  intro a b h
  have hhigh : highBit a = highBit b := by rw [← bitStep_getLsbD_zero, h, bitStep_getLsbD_zero]
  have hshift : a <<< 1 = b <<< 1 := by
    rwa [bitStep_eq, bitStep_eq, hhigh, BitVec.xor_left_inj] at h
  apply BitVec.eq_of_getLsbD_eq
  intro i hi
  by_cases h7 : i = 7
  · subst h7
    exact hhigh
  · have hbit := congrArg (BitVec.getLsbD · (i + 1)) hshift
    simpa [show i + 1 < 8 by omega, ← BitVec.getLsbD_eq_getElem] using hbit

theorem bitSteps_injective (n : Nat) : Function.Injective (bitSteps n) := by
  induction n with
  | zero => exact Function.injective_id
  | succ n ih => exact ih.comp bitStep_injective

/-- For each accumulator, every value is the result of exactly one byte. -/
theorem byteStep_bijective_right (a : Byte) : Function.Bijective fun d => byteStep a d :=
  Finite.injective_iff_bijective.mp fun _ _ h => BitVec.xor_right_inj a |>.mp (bitSteps_injective iter h)

/-- For each byte, every value is the result of exactly one accumulator. -/
theorem byteStep_bijective_left (d : Byte) : Function.Bijective fun a => byteStep a d :=
  Finite.injective_iff_bijective.mp fun _ _ h => BitVec.xor_left_inj d |>.mp (bitSteps_injective iter h)

/-- Absorbing a byte again changes nothing only where absorbing it once changed nothing. -/
theorem byteStep_twice_eq_once_iff (a d : Byte) : byteStep (byteStep a d) d = byteStep a d ↔ byteStep a d = a :=
  (byteStep_bijective_left d).injective.eq_iff

/-! ### `UPDATE` of an accumulator that has a value -/

theorem State.writeAcc_same {s : State} {a : Byte} (h : s.engine.acc = some a) : s.writeAcc a = s :=
  State.eq_of_parts (by rw [State.writeAcc_engine, ← h]) rfl

theorem exec_update {s : State} {a : Byte} (h : s.engine.acc = some a) (d : Byte) :
    exec (.update d) s = .next (s.writeAcc (byteStep a d)) := by
  simp [exec, execUpdate, withOldAcc, h]

/-- `UPDATE` writes the value `v` exactly where `ByteStep` gives it. -/
theorem exec_update_eq_writeAcc_iff {s : State} {a : Byte} (h : s.engine.acc = some a) (d v : Byte) :
    exec (.update d) s = .next (s.writeAcc v) ↔ byteStep a d = v := by
  simp [exec_update h, State.writeAcc]

/-- From an accumulator that has a value, exactly one byte's `UPDATE` leads to any given value. -/
theorem existsUnique_update_to {s : State} {a : Byte} (h : s.engine.acc = some a) (v : Byte) :
    ∃! d, exec (.update d) s = .next (s.writeAcc v) := by
  simp only [exec_update_eq_writeAcc_iff h]
  exact (byteStep_bijective_right a).existsUnique v

/-! ### Runs of idle edges, of resets and of `INIT`s -/

theorem runOn_singleton (p : PortIn) (s : State) : runOn [p] s = react p s := by
  rw [runOn_cons]
  cases react p s <;> rfl

theorem eventsOf_map_idle (js : List CmdWord) : eventsOf (js.map idle) = [] := by
  simp [eventsOf]

/-- A run of idle edges has the events of no run at all. -/
theorem runOn_map_idle (js : List CmdWord) (s : State) : runOn (js.map idle) s = .next s := by
  rw [runOn_congr_eventsOf (qs := []) (eventsOf_map_idle js), runOn_nil]

theorem opField_eq_one_iff (c : CmdWord) : opField c = 1 ↔ c.getLsbD 8 = true := by
  constructor
  · intro h
    simpa [opField] using congrArg (BitVec.getLsbD · 0) h
  · intro h
    apply BitVec.eq_of_getLsbD_eq
    intro i hi
    obtain rfl : i = 0 := by omega
    simpa [opField] using h

/-- A presented command with `op = 1` starts a message, whatever its data bits (`30_encoding.md` R35). -/
theorem present_startsMessage {c : CmdWord} (h : c.getLsbD 8 = true) : (present c).startsMessage = true := by
  have hinit : decode c = .init := (decode_eq_init_iff c).mpr ((opField_eq_one_iff c).mpr h)
  simp [PortIn.startsMessage, hinit]

theorem startsMessage_of_rst {p : PortIn} (h : p.rst = true) : p.startsMessage = true := by
  simp [PortIn.startsMessage, h]

/-- A reset and an `INIT` write the same value over any accumulator and leave the rest of the state. -/
theorem react_startsMessage_eq {p : PortIn} (h : p.startsMessage = true) (s : State) :
    react p s = .next (s.writeAcc initValue) := by
  cases hr : p.rst with
  | true => exact react_reset hr
  | false =>
    obtain ⟨ha, hd⟩ : p.accepts = true ∧ decode p.cmd = .init := by
      simpa [PortIn.startsMessage, hr] using h
    rw [react_command ha, hd]
    rfl

/-- Starting a message twice is starting it once: the second write of `acc` covers the first. -/
theorem runOn_startsMessage_twice {p : PortIn} (h : p.startsMessage = true) (s : State) :
    runOn [p, p] s = runOn [p] s ∧ runOn [p] s = .next (s.writeAcc initValue) := by
  have honce (t : State) : runOn [p] t = .next (t.writeAcc initValue) := by
    rw [runOn_singleton, react_startsMessage_eq h]
  refine ⟨?_, honce s⟩
  rw [runOn_cons, react_startsMessage_eq h]
  simp only [honce, State.writeAcc_writeAcc]

/-- Settles O31: idle edges are no events, a reset and an `INIT` each write one constant, and `ByteStep` is a bijection
in the byte. -/
theorem idempotencyOfTheActions : Obligations.IdempotencyOfTheActions := by
  refine ⟨fun s js => runOn_map_idle js s,
    fun s c hc => runOn_startsMessage_twice (present_startsMessage hc) s,
    fun s p hp => runOn_startsMessage_twice (startsMessage_of_rst hp) s, fun s a ha => ?_, 0x00, 0x01, ?_⟩
  · have hunique := existsUnique_update_to ha a
    rwa [State.writeAcc_same ha] at hunique
  · rw [Ne, byteStep_twice_eq_once_iff]
    decide

end Sys2Proof.Machine
end

section
/-! PROOFS. The 512 command words (`30_encoding.md` R33 to R35): bit 8 alone decides the operation, and each word runs
with the effect `Exec` gives it. -/

namespace Sys2Proof.Machine

/-! ### Words and operations -/

/-- Bit 8 splits the words at `0x100`. -/
theorem getLsbD_eight_iff (c : CmdWord) : c.getLsbD 8 = true ↔ 0x100 ≤ c.toNat := by
  have hmsb : c.getLsbD 8 = c.msb := rfl
  rw [hmsb, BitVec.msb_eq_true_iff_two_mul_ge]
  omega

/-- `Decode(c)` as `30_encoding.md` R33 writes it: bit 8 chooses, and the low eight bits are the byte. -/
theorem decode_eq (c : CmdWord) :
    decode c = if c.getLsbD 8 then .init else .update (c.setWidth 8) := by
  have hdata : dataField c = c.setWidth 8 := (BitVec.setWidth_eq_extractLsb' (by decide)).symm
  simp only [decode, opField_eq_one_iff, hdata]

/-- `Exec(a, c)` as `30_encoding.md` R33 writes it. -/
theorem execWord_eq (a : Byte) (c : CmdWord) :
    execWord a c = if c.getLsbD 8 then 0xFF else byteStep a (c.setWidth 8) := by
  rw [execWord, decode_eq]
  cases c.getLsbD 8 <;> rfl

@[simp] theorem decode_encode (i : Instr) : decode (encode i) = i := by
  cases i with
  | init => rfl
  | update d => simp [encode, decode_eq_update_iff]

theorem encode_init : encode .init = 0x100 := rfl

/-- The word of `UPDATE d` is the number `d` (`30_encoding.md` R37). -/
theorem encode_update (d : Byte) : encode (.update d) = d.setWidth 9 :=
  (BitVec.setWidth_eq_append (by decide)).symm

/-! ### The opcode map -/

theorem spells_iff (r : OpRow) (c : CmdWord) : r.spells c = true ↔ c &&& r.mask = r.pattern := by
  simp [OpRow.spells]

/-- The mask `0x100` keeps bit 8 and nothing else. -/
theorem and_bit_eight (c : CmdWord) : c &&& 0x100 = if c.getLsbD 8 then 0x100 else 0x000 :=
  BitVec.and_twoPow c 8

/-- A row of the map spells the words that decode to its operation, and no others. -/
theorem spells_iff_row_decode {r : OpRow} (hr : r ∈ opcodeMap) (c : CmdWord) :
    r.spells c = true ↔ r = (decode c).row := by
  have hmem : r = updateRow ∨ r = initRow := by simpa [opcodeMap] using hr
  have hmask : r.mask = 0x100 := by obtain rfl | rfl := hmem <;> rfl
  rw [spells_iff, hmask, and_bit_eight, decode_eq]
  cases c.getLsbD 8 with
  | false => obtain rfl | rfl := hmem <;> simp [Instr.row, updateRow, initRow]
  | true => obtain rfl | rfl := hmem <;> simp [Instr.row, updateRow, initRow]

theorem row_mem_opcodeMap (i : Instr) : i.row ∈ opcodeMap := by
  cases i <;> simp [Instr.row, opcodeMap]

/-- Settles O2: bit 8 of the word chooses among decodings, rows and effects alike. -/
theorem everyCommandWordSpellsExactlyOneOperation :
    Obligations.EveryCommandWordSpellsExactlyOneOperation := by
  refine ⟨rfl, fun c => ⟨fun hlow => ?_, fun hhigh => ?_, row_mem_opcodeMap _,
    fun r hr => spells_iff_row_decode hr c, fun a => execWord_eq a c⟩⟩
  · have hbit : ¬ c.getLsbD 8 = true := by
      rw [getLsbD_eight_iff]
      omega
    rw [decode_eq, if_neg hbit]
    rfl
  · rw [decode_eq, if_pos ((getLsbD_eight_iff c).mpr hhigh)]

/-! ### All 256 spellings of `INIT` -/

/-- Every word the assembler emits is the encoding of an operation. -/
theorem exists_encode_of_mem_assemble {ls : List Line} {c : CmdWord} (h : c ∈ assemble ls) :
    ∃ i, encode i = c := by
  obtain ⟨i, -, hi⟩ := List.mem_map.mp h
  exact ⟨i, hi⟩

/-- Of the words with `op = 1` only the canonical `INIT` is the encoding of an operation. -/
theorem encode_eq_of_getLsbD_eight {i : Instr} (h : (encode i).getLsbD 8 = true) : encode i = 0x100 := by
  have hinit : i = .init := by simpa [h] using decode_eq (encode i)
  rw [hinit, encode_init]

/-- Settles O3: an accepted word with `op = 1` writes one constant, whatever its data bits, and the assembler emits
encodings alone. -/
theorem initIgnoresItsDataBits : Obligations.InitIgnoresItsDataBits := by
  refine ⟨fun c hc => ⟨by rw [decode_eq, if_pos hc], fun s rest => ?_⟩, encode_init, fun ls c hmem hc => ?_⟩
  · rw [step_cons (State.withInputs_inputs ..), step_cons (State.withInputs_inputs ..),
      react_startsMessage_eq (present_startsMessage hc), react_startsMessage_eq (present_startsMessage rfl)]
    rfl
  · obtain ⟨i, rfl⟩ := exists_encode_of_mem_assemble hmem
    exact encode_eq_of_getLsbD_eight hc

/-! ### Every word runs -/

/-- Where `acc` has a value, each of the 512 words completes and writes what `Exec` gives. -/
theorem react_present {s : State} {a : Byte} (h : s.engine.acc = some a) (c : CmdWord) :
    react (present c) s = .next (s.writeAcc (execWord a c)) := by
  rw [react_command (present_accepts c), present_cmd, execWord]
  cases decode c with
  | init => rfl
  | update d => exact exec_update h d

/-- Settles O20: the step is the edge at which the word is presented, with that drive taken. -/
theorem noCommandWordIsRefused : Obligations.NoCommandWordIsRefused := by
  intro c s a rest hacc hinputs
  rw [step_cons hinputs, react_present (s := s.withInputs rest) hacc]
  rfl

end Sys2Proof.Machine
end

section
/-! PROOFS. Runs of commands presented one after the other agree with `Run` (`40_checksum_ops.md` R45), and what the
pseudo-operations are used for follows (`30_encoding.md` R38). -/

namespace Sys2Proof.Machine

/-! ### Commands one after the other -/

/-- From an accumulator that has a value, a run of commands computes `Run`. -/
theorem runOn_map_present {s : State} {a : Byte} (h : s.engine.acc = some a) (cs : List CmdWord) :
    runOn (cs.map present) s = .next (s.writeAcc (runWords a cs)) := by
  induction cs generalizing s a with
  | nil => rw [List.map_nil, runOn_nil, runWords_nil, State.writeAcc_same h]
  | cons c cs ih =>
    rw [List.map_cons, runOn_cons, react_present h]
    exact ih (State.writeAcc_acc ..)

/-- From every state, a run of commands that begins with `INIT` computes `Run` of the others from `0xFF`. -/
theorem runOn_map_present_init (s : State) (cs : List CmdWord) :
    runOn ((encode .init :: cs).map present) s = .next (s.writeAcc (runWords initValue cs)) := by
  rw [List.map_cons, runOn_cons, react_startsMessage_eq (present_startsMessage rfl)]
  exact runOn_map_present (State.writeAcc_acc ..) cs

/-- `Exec` of an operation's own word. -/
theorem execWord_encode_update (a d : Byte) : execWord a (encode (.update d)) = byteStep a d := by
  rw [execWord, decode_encode]

/-- `Run` of the words of `UPDATE`s is `Fold` of their bytes. -/
theorem runWords_updates (a : Byte) (bs : List Byte) :
    runWords a ((bs.map Instr.update).map encode) = fold a bs := by
  induction bs generalizing a with
  | nil => rfl
  | cons b bs ih => rw [List.map_cons, List.map_cons, runWords_cons, execWord_encode_update, ih, fold_cons]

/-! ### The functions of a message -/

/-- The incremental law (`40_checksum_ops.md` R53). -/
theorem fold_append (a : Byte) (xs ys : List Byte) : fold a (xs ++ ys) = fold (fold a xs) ys := by
  induction xs generalizing a with
  | nil => rfl
  | cons x xs ih => exact ih (byteStep a x)

theorem byteStep_self (a : Byte) : byteStep a a = 0x00 := by
  rw [byteStep_eq_bitSteps, BitVec.xor_self]
  exact bitSteps_zero iter

/-- The residue law (`40_checksum_ops.md` R54). -/
theorem byteStep_eq_zero_iff (a c : Byte) : byteStep a c = 0x00 ↔ c = a := by
  rw [← byteStep_self a]
  exact (byteStep_bijective_right a).injective.eq_iff

/-! ### The pseudo-operations -/

theorem map_encode_update (bs : List Byte) :
    (bs.map Instr.update).map encode = bs.map fun b => b.setWidth 9 := by
  simp [Function.comp_def, encode_update]

theorem assemble_append (bs : List Byte) : assemble [.append bs] = (bs.map Instr.update).map encode := by
  simp [assemble, Line.expand]

/-- The words of a program whose commands are those of `MSG bs`. -/
theorem assemble_of_expand_eq_msg {ls : List Line} {bs : List Byte}
    (h : ls.flatMap Line.expand = (Line.msg bs).expand) :
    assemble ls = encode .init :: (bs.map Instr.update).map encode := by
  rw [assemble, h, Line.expand, List.map_cons]

/-- `APPEND bs` continues from the accumulator it finds. -/
theorem crcAfter_append {s : State} {a : Byte} (h : s.engine.acc = some a) (bs : List Byte) :
    crcAfter (runProgram [.append bs] s) = some (fold a bs) := by
  rw [runProgram, assemble_append, runOn_map_present h, runWords_updates, crcAfter_next, State.writeAcc_crc]

/-- A program whose commands are those of `MSG bs` leaves `CRC8(bs)`, from every state. -/
theorem crcAfter_of_expand_eq_msg {ls : List Line} {bs : List Byte}
    (h : ls.flatMap Line.expand = (Line.msg bs).expand) (s : State) :
    crcAfter (runProgram ls s) = some (crc8 bs) := by
  rw [runProgram, assemble_of_expand_eq_msg h, runOn_map_present_init, runWords_updates, crcAfter_next,
    State.writeAcc_crc, crc8]

theorem crcAfter_msg (bs : List Byte) (s : State) : crcAfter (runProgram [.msg bs] s) = some (crc8 bs) :=
  crcAfter_of_expand_eq_msg (List.flatMap_singleton ..) s

/-- `CHK c` absorbs one more byte, as an `UPDATE` does. -/
theorem crcAfter_msg_chk (m : List Byte) (c : Byte) (s : State) :
    crcAfter (runProgram [.msg m, .chk c] s) = some (byteStep (crc8 m) c) := by
  have hexpand : [Line.msg m, .chk c].flatMap Line.expand = (Line.msg (m ++ [c])).expand := by
    simp [Line.expand]
  rw [crcAfter_of_expand_eq_msg hexpand, crc8, fold_append, fold_cons, fold_nil, crc8]

/-- Settles O47: the expansions are read off, and the uses are runs of commands, with the residue law for `CHK`. -/
theorem pseudoOperationsExpandAsListed : Obligations.PseudoOperationsExpandAsListed := by
  refine ⟨fun bs => ?_, fun bs => ?_, fun c => ⟨?_, rfl⟩, rfl, crcAfter_msg,
    fun a bs s ha => crcAfter_append ha bs, fun m c s => ?_⟩
  · rw [assemble_of_expand_eq_msg (List.flatMap_singleton ..), encode_init, map_encode_update]
  · rw [assemble_append, map_encode_update]
  · exact congrArg (fun w => [w]) (encode_update c)
  · rw [crcAfter_msg_chk, Option.some_inj, byteStep_eq_zero_iff]

end Sys2Proof.Machine
end

section
/-! PROOFS. The arithmetic of one byte (`40_checksum_ops.md` R40, R41, R48, R55): `BitStep` in bits, `ByteStep` as a
linear function of accumulator and byte, its table, and its combinational form, which the images of the eight single
bits determine. -/

namespace Sys2Proof.Machine

/-! ### One iteration -/

/-- The spec's shift in nine bits, truncated, is the shift in eight. -/
theorem setWidth_shiftLeft_nine (a : Byte) : (a.setWidth 9 <<< 1).setWidth 8 = a <<< 1 := by
  rw [BitVec.setWidth_shiftLeft_of_le (by decide), BitVec.setWidth_setWidth_of_le a (by decide), BitVec.setWidth_eq]

/-- An iteration in the spec's terms: the tested bit decides whether `POLY` is XORed into the truncated shift. -/
theorem bitStep_eq_setWidth (a : Byte) :
    bitStep a =
      if a.getLsbD 7 then ((a.setWidth 9 <<< 1).setWidth 8) ^^^ 0x31 else (a.setWidth 9 <<< 1).setWidth 8 := by
  rw [bitStep, trunc8_shiftLeftOne, setWidth_shiftLeft_nine]
  rfl

/-- Settles O32: the shift is the same in eight and in nine bits, and truncation distributes over the XOR. -/
theorem bitStepShiftsAndXorsThePolynomial : Obligations.BitStepShiftsAndXorsThePolynomial := by
  refine ⟨bitStep_eq_setWidth, fun a => ?_, fun a h => ?_, by decide⟩
  · rw [setWidth_shiftLeft_nine]
    exact BitVec.shiftLeft_eq_concat_of_lt (by decide)
  · rw [bitStep_eq_setWidth, if_pos h, BitVec.setWidth_xor]
    rfl

/-- Settles O33: `ITER` is eight, and equal accumulator and byte cancel before the first iteration. -/
theorem byteStepIsOneXorAndEightBitSteps : Obligations.ByteStepIsOneXorAndEightBitSteps :=
  ⟨fun _ _ => rfl, byteStep_self, by decide⟩

/-! ### Linearity -/

/-- Absorbing a byte is linear in accumulator and byte together. -/
theorem byteStep_xor (a b x y : Byte) : byteStep (a ^^^ b) (x ^^^ y) = byteStep a x ^^^ byteStep b y := by
  have hargs : (a ^^^ b) ^^^ (x ^^^ y) = (a ^^^ x) ^^^ (b ^^^ y) := by ac_rfl
  rw [byteStep_eq_bitSteps, hargs, bitSteps_xor, ← byteStep_eq_bitSteps, ← byteStep_eq_bitSteps]

/-- `T[x ^ y] = T[x] ^ T[y]` (`40_checksum_ops.md` R55). -/
theorem byteStep_zero_xor (x y : Byte) : byteStep 0x00 (x ^^^ y) = byteStep 0x00 x ^^^ byteStep 0x00 y :=
  byteStep_xor 0x00 0x00 x y

/-- Absorbing a byte is `T` of the XOR of accumulator and byte. -/
theorem byteStep_eq_byteStep_zero (a d : Byte) : byteStep a d = byteStep 0x00 (a ^^^ d) :=
  congrArg (bitSteps iter) BitVec.zero_xor.symm

/-- Absorbing lists of equal length is linear in accumulator and bytes together. -/
theorem fold_xorBytes (a b : Byte) {xs ys : List Byte} (h : xs.length = ys.length) :
    fold (a ^^^ b) (xorBytes xs ys) = fold a xs ^^^ fold b ys := by
  induction xs generalizing a b ys with
  | nil =>
    obtain rfl : ys = [] := List.length_eq_zero_iff.mp h.symm
    rfl
  | cons x xs ih =>
    cases ys with
    | nil => cases h
    | cons y ys =>
      rw [xorBytes, List.zipWith_cons_cons, fold_cons, byteStep_xor]
      exact ih (byteStep a x) (byteStep b y) (Nat.succ.inj h)

/-- Settles O40: equal initial values cancel, so the difference of two checksums starts from `0x00`. -/
theorem checksumIsLinear : Obligations.ChecksumIsLinear := by
  refine ⟨byteStep_zero_xor, fun a b xs ys h => fold_xorBytes a b h, fun xs ys h => ?_⟩
  rw [crc8, crc8, ← fold_xorBytes initValue initValue h, BitVec.xor_self]
  rfl

/-! ### A linear function of a byte is the XOR of its single-bit images -/

/-- The XOR of `img j` over the bits `j` that are set in `c`, in the order `40_checksum_ops.md` R48 lists them. -/
def xorOfSetBits (img : Nat → Byte) (c : Byte) : Byte :=
  (List.range 8).foldl (fun x j => if c.getLsbD j then x ^^^ img j else x) 0

/-- A byte is the XOR of its own set bits. -/
theorem xorOfSetBits_bits (c : Byte) : xorOfSetBits (fun j => 1#8 <<< j) c = c := by
  revert c
  decide +kernel

theorem xorOfSetBits_congr {f g : Nat → Byte} (h : ∀ j ∈ List.range 8, f j = g j) (c : Byte) :
    xorOfSetBits f c = xorOfSetBits g c :=
  List.foldl_ext _ _ 0 fun x j hj => by rw [h j hj]

section
variable {f g : Byte → Byte}

theorem linear_zero (hf : ∀ x y, f (x ^^^ y) = f x ^^^ f y) : f 0 = 0 := by
  simpa using hf 0 0

/-- A linear function is the XOR of the images of the bits that are set. -/
theorem linear_eq_xorOfSetBits (hf : ∀ x y, f (x ^^^ y) = f x ^^^ f y) (c : Byte) :
    f c = xorOfSetBits (fun j => f (1#8 <<< j)) c := by
  calc f c
      = f (xorOfSetBits (fun j => 1#8 <<< j) c) := by rw [xorOfSetBits_bits]
    _ = xorOfSetBits (fun j => f (1#8 <<< j)) c := by
      rw [xorOfSetBits, xorOfSetBits, ← List.foldl_hom f (fun x j => ?_), linear_zero hf]
      split
      · rw [hf]
      · rfl

/-- Linear functions with the same single-bit images are the same. -/
theorem linear_ext (hf : ∀ x y, f (x ^^^ y) = f x ^^^ f y) (hg : ∀ x y, g (x ^^^ y) = g x ^^^ g y)
    (h : ∀ j ∈ List.range 8, f (1#8 <<< j) = g (1#8 <<< j)) (c : Byte) : f c = g c := by
  rw [linear_eq_xorOfSetBits hf, linear_eq_xorOfSetBits hg, xorOfSetBits_congr h]

end

/-! ### The two other forms -/

theorem byteStepXors_eq_zero (a d : Byte) : byteStepXors a d = byteStepXors 0x00 (a ^^^ d) := by
  have hzero : (0x00 : Byte) ^^^ (a ^^^ d) = a ^^^ d := BitVec.zero_xor
  rw [byteStepXors, byteStepXors, hzero]

/-- The combinational form is linear: each bit of the result is an XOR of bits of the argument. -/
theorem byteStepXors_zero_xor (x y : Byte) :
    byteStepXors 0x00 (x ^^^ y) = byteStepXors 0x00 x ^^^ byteStepXors 0x00 y := by
  simp only [byteStepXors, BitVec.ofBoolListBE, BitVec.ofNat_eq_ofNat, BitVec.zero_xor, BitVec.getLsbD_xor,
    List.length_cons, List.length_nil, BitVec.cons_xor_cons, BitVec.xor_zero]
  simp only [Bool.xor_assoc, Bool.xor_left_comm, Bool.xor_comm]

/-- The combinational form has the single-bit images of `T`. -/
theorem byteStepXors_eq_byteStep (a d : Byte) : byteStepXors a d = byteStep a d := by
  rw [byteStepXors_eq_zero, byteStep_eq_byteStep_zero]
  exact linear_ext byteStepXors_zero_xor byteStep_zero_xor (by decide) (a ^^^ d)

/-- The listing of `95_test_vectors.md` section 3 is `T`, entry by entry. -/
theorem crcTable_eq : crcTable = (List.range 256).map fun n => byteStep 0x00 (BitVec.ofNat 8 n) := by
  decide +kernel

theorem crcTable_length : crcTable.length = 256 := by
  rw [crcTable_eq, List.length_map, List.length_range]

theorem crcTable_getElem? (c : Byte) : crcTable[c.toNat]? = some (byteStep 0x00 c) := by
  rw [crcTable_eq, List.getElem?_map, List.getElem?_range c.isLt, Option.map_some, BitVec.ofNat_toNat,
    BitVec.setWidth_eq]

theorem byteStepTable_eq_byteStep (a d : Byte) : byteStepTable a d = byteStep a d := by
  rw [byteStepTable, List.getD_eq_getElem?_getD, crcTable_getElem?, Option.getD_some, ← byteStep_eq_byteStep_zero]

/-- Settles O35: the table is checked entry by entry, and the combinational form by its single-bit images. -/
theorem tableAndXorFormsEqualByteStep : Obligations.TableAndXorFormsEqualByteStep :=
  ⟨fun a d => ⟨byteStepTable_eq_byteStep a d, byteStepXors_eq_byteStep a d, byteStep_eq_byteStep_zero a d⟩,
    crcTable_length, crcTable_getElem?, by decide, linear_eq_xorOfSetBits byteStep_zero_xor⟩

end Sys2Proof.Machine
end

section
/-! PROOFS. `Fold` and `CRC8` (`40_checksum_ops.md` R43, R44, R54, R57): one more byte at the end, and runs of zero
bytes, which iterate one map of the accumulator. -/

namespace Sys2Proof.Machine

/-- Settles O34: the equations are `Fold`'s own, and the examples are evaluated. -/
theorem crc8FoldsTheBytesFromFF : Obligations.Crc8FoldsTheBytesFromFF :=
  ⟨fold_nil, fold_cons, fun _ => rfl, by decide +kernel⟩

/-! ### One more byte -/

/-- The checksum of a message with one more byte. -/
theorem crc8_concat (m : List Byte) (c : Byte) : crc8 (m ++ [c]) = byteStep (crc8 m) c :=
  fold_append initValue m [c]

/-- Settles O39: the last byte meets the checksum of what stands before it. -/
theorem residueIsZeroExactlyForTheChecksum : Obligations.ResidueIsZeroExactlyForTheChecksum :=
  ⟨byteStep_eq_zero_iff, fun m c => by rw [crc8_concat, byteStep_eq_zero_iff]⟩

/-- `Fold` loses nothing of the accumulator it starts from. -/
theorem fold_injective (bs : List Byte) : Function.Injective fun a => fold a bs := by
  induction bs with
  | nil => exact Function.injective_id
  | cons b bs ih => exact ih.comp (byteStep_bijective_left b).injective

/-! ### Runs of zero bytes -/

theorem bitSteps_eq_iterate (n : Nat) : bitSteps n = bitStep^[n] := by
  induction n with
  | zero => rfl
  | succ n ih =>
    rw [Function.iterate_succ, ← ih]
    rfl

/-- After 127 iterations every value comes back. -/
theorem bitSteps_127 (a : Byte) : bitSteps 127 a = a :=
  linear_ext (g := id) (bitSteps_xor 127) (fun _ _ => rfl) (by decide +kernel) a

/-- Absorbing a zero byte is `ITER` iterations of the accumulator. -/
theorem byteStep_zero_right (a : Byte) : byteStep a 0x00 = bitSteps iter a :=
  congrArg (bitSteps iter) BitVec.xor_zero

/-- Zero bytes one after the other iterate one map of the accumulator. -/
theorem fold_replicate_zero (n : Nat) (a : Byte) : fold a (List.replicate n 0x00) = (bitSteps iter)^[n] a := by
  induction n generalizing a with
  | zero => rfl
  | succ n ih => rw [List.replicate_succ, fold_cons, ih, byteStep_zero_right, Function.iterate_succ_apply]

/-- After 127 zero bytes every accumulator comes back, since the iterations of a byte may be counted in any order. -/
theorem bitSteps_iter_iterate_127 (a : Byte) : (bitSteps iter)^[127] a = a := by
  have hid : bitStep^[127] = id := by rw [← bitSteps_eq_iterate, funext bitSteps_127]; rfl
  rw [bitSteps_eq_iterate, ← Function.iterate_mul, Nat.mul_comm, Function.iterate_mul, hid, Function.iterate_id, id]

/-- Zero bytes carry `INIT_VALUE` around a cycle of 127 values: a prime number of them brings it back, and one does
not. -/
theorem minimalPeriod_bitSteps_iter_initValue : Function.minimalPeriod (bitSteps iter) initValue = 127 := by
  have hprime : Fact (Nat.Prime 127) := ⟨by norm_num⟩
  have hmoved : ¬ Function.IsFixedPt (bitSteps iter) initValue := by
    unfold Function.IsFixedPt
    decide
  exact Function.minimalPeriod_eq_prime_iff.mpr ⟨bitSteps_iter_iterate_127 initValue, hmoved⟩

/-- `n` zero bytes bring the accumulator back to `INIT_VALUE` exactly where 127 divides `n`. -/
theorem crc8_replicate_zero_eq_initValue_iff (n : Nat) :
    crc8 (List.replicate n 0x00) = initValue ↔ 127 ∣ n := by
  rw [crc8, fold_replicate_zero, ← minimalPeriod_bitSteps_iter_initValue]
  exact Function.isPeriodicPt_iff_minimalPeriod_dvd

/-- Leading zero bytes go unnoticed exactly where they bring the accumulator back to `INIT_VALUE`. -/
theorem crc8_zeros_append_iff (m : List Byte) (n : Nat) :
    crc8 (List.replicate n 0x00 ++ m) = crc8 m ↔ 127 ∣ n := by
  rw [← crc8_replicate_zero_eq_initValue_iff, crc8, fold_append]
  exact (fold_injective m).eq_iff

/-- Zero bytes keep `0x00`, so they lead to it from nowhere else. -/
theorem crc8_replicate_zero_ne_zero (n : Nat) : crc8 (List.replicate n 0x00) ≠ 0x00 := by
  have hzero : fold 0x00 (List.replicate n 0x00) = 0x00 := by
    rw [fold_replicate_zero]
    exact Function.iterate_fixed (bitSteps_zero iter) n
  intro h
  exact absurd (fold_injective _ (h.trans hzero.symm)) (by decide)

/-- Settles O45: the listed values are evaluated, and the laws are those of the cycle of `INIT_VALUE` under zero
bytes. -/
theorem checksumsOfRunsOfEqualBytes : Obligations.ChecksumsOfRunsOfEqualBytes :=
  ⟨by decide +kernel, by decide +kernel, crc8_zeros_append_iff, crc8_replicate_zero_ne_zero⟩

end Sys2Proof.Machine
end

section
/-! PROOFS. `INIT` in every state, and runs of a message (`40_checksum_ops.md` R42, R45, R53): `Run` realises `CRC8`,
and drives without a reset and without `INIT` continue the message. -/

namespace Sys2Proof.Machine

/-! ### `INIT` -/

/-- `INIT` writes `INIT_VALUE` over any accumulator, and over none. -/
theorem exec_init (s : State) : exec .init s = .next (s.writeAcc initValue) := rfl

/-- Where `acc` is `INIT_VALUE` already, `INIT` changes nothing. -/
theorem exec_init_of_acc {s : State} (h : s.engine.acc = some initValue) : exec .init s = .next s := by
  rw [exec_init, State.writeAcc_same h]

/-- An `INIT` that has completed leaves `INIT_VALUE`. -/
theorem acc_of_exec_init {s t : State} (h : exec .init s = .next t) : t.engine.acc = some initValue := by
  cases h
  exact State.writeAcc_acc ..

/-- The words of `INIT` are those from `0x100` on. -/
theorem decode_eq_init_iff_le (c : CmdWord) : decode c = .init ↔ 0x100 ≤ c.toNat := by
  rw [decode_eq_init_iff, opField_eq_one_iff, getLsbD_eight_iff]

/-- Settles O12: `INIT` writes one constant, which it finds again when it runs a second time. -/
theorem initLoadsFFInEveryState : Obligations.InitLoadsFFInEveryState :=
  ⟨exec_init, fun _ => exec_init_of_acc, fun _ _ h => exec_init_of_acc (acc_of_exec_init h),
    decode_eq_init_iff_le, encode_init⟩

/-! ### `Run` realises `CRC8` -/

/-- `Exec` of the canonical `INIT`. -/
theorem execWord_encode_init (a : Byte) : execWord a (encode .init) = initValue := by
  rw [execWord, decode_encode]

/-- Settles O28: `INIT` forgets the start value, and then `Run` is `Fold` of the bytes. -/
theorem runRealisesTheReferenceFunction : Obligations.RunRealisesTheReferenceFunction := by
  refine ⟨runWords_nil, runWords_cons, fun a bs => ?_, fun bs => ?_, fun s a cs h => runOn_map_present h cs⟩
  · rw [← map_encode_update, ← encode_init, List.singleton_append, runWords_cons, execWord_encode_init,
      runWords_updates, crc8]
  · rw [← map_encode_update, runWords_updates]
    rfl

/-! ### A message in pieces -/

/-- The idle edges of a run are in no event of it. -/
theorem eventsOf_filter (ps : List PortIn) : eventsOf (ps.filter fun p => p.rst || p.cmdValid) = eventsOf ps := by
  simp only [eventsOf, List.filter_filter, Bool.and_self]

/-- The command words that a run of drives accepts, in order. -/
def acceptedWords (ps : List PortIn) : List CmdWord := (ps.filter PortIn.accepts).map (·.cmd)

/-- Without a reset the events of a run are its accepted commands. -/
theorem eventsOf_present_acceptedWords {ps : List PortIn} (h : ∀ p ∈ ps, p.rst = false) :
    eventsOf ((acceptedWords ps).map present) = eventsOf ps := by
  induction ps with
  | nil => rfl
  | cons p ps ih =>
    obtain ⟨hp, hps⟩ := List.forall_mem_cons.mp h
    have hevent : p.isEvent = p.accepts := by simp [PortIn.isEvent, hp]
    cases ha : p.accepts with
    | false =>
      rw [eventsOf_cons_idle (hevent.trans ha), ← ih hps, acceptedWords, List.filter_cons_of_neg (by simp [ha])]
      rfl
    | true =>
      have hword : (present p.cmd).event = p.event := by simp [PortIn.event, hp]
      rw [eventsOf_cons_event (hevent.trans ha), ← ih hps, acceptedWords, List.filter_cons_of_pos ha, List.map_cons,
        List.map_cons, eventsOf_cons_event rfl, hword]
      rfl

/-- Words that are no `INIT` continue the message by their low eight bits. -/
theorem runWords_eq_fold {cs : List CmdWord} (h : ∀ c ∈ cs, decode c ≠ .init) (a : Byte) :
    runWords a cs = fold a (cs.map (·.setWidth 8)) := by
  induction cs generalizing a with
  | nil => rfl
  | cons c cs ih =>
    obtain ⟨hc, hcs⟩ := List.forall_mem_cons.mp h
    have hbit : ¬ c.getLsbD 8 = true := by rwa [Ne, decode_eq_init_iff, opField_eq_one_iff] at hc
    rw [runWords_cons, execWord_eq, if_neg hbit, ih hcs, List.map_cons, fold_cons]

/-- Drives without a reset and without `INIT` continue the message with the bytes of their `UPDATE`s. -/
theorem runOn_of_no_message_start {ps : List PortIn} {s : State} {a : Byte} (hacc : s.engine.acc = some a)
    (h : ∀ p ∈ ps, p.rst = false ∧ (p.cmdValid = true → decode p.cmd ≠ .init)) :
    runOn ps s = .next (s.writeAcc (fold a ((acceptedWords ps).map (·.setWidth 8)))) := by
  have hwords : ∀ c ∈ acceptedWords ps, decode c ≠ .init := by
    intro c hc
    obtain ⟨p, hp, rfl⟩ := List.mem_map.mp hc
    obtain ⟨hmem, haccepts⟩ := List.mem_filter.mp hp
    obtain ⟨hrst, hcmd⟩ := h p hmem
    exact hcmd (by simpa [PortIn.accepts_eq, hrst] using haccepts)
  rw [← runOn_congr_eventsOf (eventsOf_present_acceptedWords fun p hp => (h p hp).left), runOn_map_present hacc,
    runWords_eq_fold hwords]

/-- `MSG xs` and then `APPEND ys` are the commands of one message. -/
theorem crcAfter_msg_append (xs ys : List Byte) (s : State) :
    crcAfter (runProgram [.msg xs, .append ys] s) = some (crc8 (xs ++ ys)) :=
  crcAfter_of_expand_eq_msg (by simp [Line.expand]) s

/-- Settles O38: `Fold` goes on from where it was, and a run without a reset is the run of the commands it accepts. -/
theorem messageMayBePresentedInPieces : Obligations.MessageMayBePresentedInPieces := by
  refine ⟨fold_append, fold_append initValue, fun ps s => runOn_congr_eventsOf (eventsOf_filter ps).symm s,
    crcAfter_msg_append, fun ps s a hacc h => ?_⟩
  rw [runOn_of_no_message_start hacc h, crcAfter_next, State.writeAcc_crc, acceptedWords, List.map_map]
  rfl

end Sys2Proof.Machine
end

section
/-! PROOFS. The message protocol (`41_message_protocol.md` R60, R61, R66): drives without a reset are the program of the
operations they present, whatever the spelling and wherever the idle edges; and what a transaction, the two checks and a
valid group leave behind. -/

namespace Sys2Proof.Machine

/-! ### Drives without a reset are a program -/

/-- The engine does not tell the spellings of an operation apart. -/
theorem react_present_encode_decode (c : CmdWord) (s : State) :
    react (present (encode (decode c))) s = react (present c) s := by
  rw [react_command (present_accepts _), react_command (present_accepts _), present_cmd, present_cmd, decode_encode]

/-- Commands may be exchanged for the canonical words of their operations. -/
theorem runOn_map_present_canonical (cs : List CmdWord) (s : State) :
    runOn (((cs.map decode).map encode).map present) s = runOn (cs.map present) s := by
  induction cs generalizing s with
  | nil => rfl
  | cons c cs ih => simp only [List.map_cons, runOn_cons, react_present_encode_decode, ih]

theorem map_decode_acceptedWords (ps : List PortIn) :
    (acceptedWords ps).map decode = (ps.filter PortIn.accepts).map fun p => decode p.cmd :=
  List.map_map

/-- Drives without a reset whose accepted commands are those of a program run as that program does. -/
theorem runOn_eq_runProgram {ps : List PortIn} {ls : List Line} (hrst : ∀ p ∈ ps, p.rst = false)
    (hops : (ps.filter PortIn.accepts).map (fun p => decode p.cmd) = ls.flatMap Line.expand) (s : State) :
    runOn ps s = runProgram ls s := by
  calc runOn ps s
      = runOn ((acceptedWords ps).map present) s :=
        (runOn_congr_eventsOf (eventsOf_present_acceptedWords hrst) s).symm
    _ = runOn ((((acceptedWords ps).map decode).map encode).map present) s :=
        (runOn_map_present_canonical _ s).symm
    _ = runProgram ls s := by rw [map_decode_acceptedWords, hops, runProgram, assemble]

/-! ### Where the programs of a message end -/

/-- From every state, a program whose commands are those of `MSG bs` completes and writes `CRC8(bs)` alone. -/
theorem runProgram_of_expand_eq_msg {ls : List Line} {bs : List Byte}
    (h : ls.flatMap Line.expand = (Line.msg bs).expand) (s : State) :
    runProgram ls s = .next (s.writeAcc (crc8 bs)) := by
  rw [runProgram, assemble_of_expand_eq_msg h, runOn_map_present_init, runWords_updates, crc8]

theorem runProgram_msg (bs : List Byte) (s : State) : runProgram [.msg bs] s = .next (s.writeAcc (crc8 bs)) :=
  runProgram_of_expand_eq_msg (List.flatMap_singleton ..) s

theorem runProgram_append {s : State} {a : Byte} (h : s.engine.acc = some a) (bs : List Byte) :
    runProgram [.append bs] s = .next (s.writeAcc (fold a bs)) := by
  rw [runProgram, assemble_append, runOn_map_present h, runWords_updates]

/-- `MSG m` and `CHK c` are the commands of one message that ends with `c`. -/
theorem runProgram_msg_chk (m : List Byte) (c : Byte) (s : State) :
    runProgram [.msg m, .chk c] s = .next (s.writeAcc (byteStep (crc8 m) c)) := by
  rw [← crc8_concat]
  exact runProgram_of_expand_eq_msg (by simp [Line.expand]) s

/-- Directly after a reset the `INIT` of a message may be left out. -/
theorem runProgram_append_of_reset {s : State} (h : s.engine = State.reset.engine) (bs : List Byte) :
    runProgram [.append bs] s = .next (s.writeAcc (crc8 bs)) :=
  runProgram_append (a := initValue) (congrArg Engine.acc h) bs

/-- Settles O27: the drives run as `MSG bs`, and after a reset as `APPEND bs`, from the accumulator `0xFF`. -/
theorem transactionLeavesTheChecksumOfItsBytes : Obligations.TransactionLeavesTheChecksumOfItsBytes := by
  refine ⟨rfl, fun bs ps s hrst => ⟨fun hmsg => ⟨s.writeAcc (crc8 bs), ?_, rfl, rfl⟩,
    fun hreset happend => ⟨s.writeAcc (crc8 bs), ?_, rfl, rfl⟩⟩⟩
  · rw [runOn_eq_runProgram (ls := [.msg bs]) hrst (hmsg.trans (List.flatMap_singleton ..).symm), runProgram_msg]
  · rw [runOn_eq_runProgram (ls := [.append bs]) hrst (happend.trans (List.flatMap_singleton ..).symm),
      runProgram_append_of_reset hreset]

/-! ### The two checks -/

/-- The compare method accepts exactly the checksum, from every state. -/
theorem compareCheck_iff (m : List Byte) (c : Byte) (s : State) : compareCheck m c s = true ↔ c = crc8 m := by
  rw [compareCheck, crcAfter_msg, beq_iff_eq, Option.some_inj, eq_comm]

/-- The residue method accepts exactly the checksum, from every state. -/
theorem residueCheck_iff (m : List Byte) (c : Byte) (s : State) : residueCheck m c s = true ↔ c = crc8 m := by
  rw [residueCheck, crcAfter_msg_chk, beq_iff_eq, Option.some_inj]
  exact byteStep_eq_zero_iff ..

/-- Settles O50: the transaction leaves the one byte that both methods accept. -/
theorem appendedChecksumIsAccepted : Obligations.AppendedChecksumIsAccepted := fun m s s' =>
  ⟨crc8 m, crcAfter_msg m s, rfl, (compareCheck_iff m _ s').mpr rfl, (residueCheck_iff m _ s').mpr rfl⟩

/-- Settles O51: `CHK` leaves the residue of the received byte, which is `0x00` for the checksum alone; what follows
without `INIT` goes on from there. -/
theorem residueCheckLeavesZeroForAValidGroup : Obligations.ResidueCheckLeavesZeroForAValidGroup := by
  intro m c s
  refine ⟨s.writeAcc (byteStep (crc8 m) c), runProgram_msg_chk m c s, ?_, fun hvalid => ?_⟩
  · rw [State.writeAcc_crc, Option.some_inj, byteStep_eq_zero_iff]
  · have hzero : (s.writeAcc (byteStep (crc8 m) c)).engine.acc = some 0x00 := by
      rw [State.writeAcc_acc, hvalid, byteStep_self]
    refine ⟨hzero, ?_, fun m2 => ⟨crcAfter_append hzero m2, crcAfter_msg m2 _⟩⟩
    rw [hzero]
    decide

end Sys2Proof.Machine
end

section
/-! PROOFS. A message without `INIT` (`70_reset_and_hazards.md` R85): it goes on from the accumulator it finds, whether
another message, a valid check, `INIT` or a reset left it. -/

namespace Sys2Proof.Machine

/-- After the correct checksum byte, `Fold` goes on from `0x00`. -/
theorem crc8_append_checksum_cons (m1 m2 : List Byte) : crc8 (m1 ++ crc8 m1 :: m2) = fold 0x00 m2 := by
  calc crc8 (m1 ++ crc8 m1 :: m2)
      = fold (byteStep (crc8 m1) (crc8 m1)) m2 := fold_append initValue m1 (crc8 m1 :: m2)
    _ = fold 0x00 m2 := by rw [byteStep_self]

/-- A valid check leaves `0x00`, and the next message without `INIT` goes on from there. -/
theorem crcAfter_msg_chk_append (m1 m2 : List Byte) (s : State) :
    crcAfter (runProgram [.msg m1, .chk (crc8 m1), .append m2] s) = some (fold 0x00 m2) := by
  rw [← crc8_append_checksum_cons m1 m2]
  exact crcAfter_of_expand_eq_msg (by simp [Line.expand]) s

/-- A drive that starts a message, by reset or by `INIT`, and then `APPEND bs` leave `CRC8(bs)`, from every state. -/
theorem crcAfter_startsMessage_append {p : PortIn} (h : p.startsMessage = true) (bs : List Byte) (s : State) :
    crcAfter (runOn (p :: (assemble [.append bs]).map present) s) = some (crc8 bs) := by
  rw [runOn_cons, react_startsMessage_eq h]
  exact crcAfter_append (State.writeAcc_acc ..) bs

/-- Settles O55: `APPEND` folds on from the accumulator it finds, which is `CRC8(m1)` after a message, `0x00` after a
valid check, and `INIT_VALUE` after `INIT` or a reset. -/
theorem missingInitCarriesTheAccumulatorOver : Obligations.MissingInitCarriesTheAccumulatorOver := by
  refine ⟨fun a m2 s hacc => crcAfter_append hacc m2, fun m1 m2 s => ⟨crcAfter_msg m1 s,
    crcAfter_msg_append m1 m2 s, ?_, crcAfter_msg_chk_append m1 m2 s, ?_⟩,
    fun m2 s p hrst => crcAfter_startsMessage_append (startsMessage_of_rst hrst) m2 s, by decide +kernel⟩
  · rw [crcAfter_msg_chk, byteStep_self]
  · exact crcAfter_startsMessage_append (present_startsMessage (c := encode .init) rfl) m2 s

end Sys2Proof.Machine
end
section
/-! PROOFS. Operations, their words and the numbers of the words (`30_encoding.md` R30 to R33): decoding undoes
encoding, and a word presented next is the operation run next. -/

namespace Sys2Proof.Machine

/-! ### Words as numbers -/

/-- The number of a word passes the one check a number can fail (`30_encoding.md` R31). -/
@[simp] theorem commandNumberWf_toNat (c : CmdWord) : commandNumberWf c.toNat = true := by
  have hlt : c.toNat < 2 ^ 9 := c.isLt
  simp only [commandNumberWf, decide_eq_true_eq]
  omega

@[simp] theorem ofNat_nine_toNat (c : CmdWord) : BitVec.ofNat 9 c.toNat = c := by
  rw [BitVec.ofNat_toNat, BitVec.setWidth_eq]

/-- Decoding a word's number decodes the word. -/
theorem decodeNumber_toNat (c : CmdWord) : decodeNumber c.toNat = .ok (decode c) := by
  rw [decodeNumber, if_pos (commandNumberWf_toNat c), ofNat_nine_toNat]

/-- A number is a command exactly where it passes the check. -/
theorem decodeNumber_of_le {n : Nat} (h : n ≤ 511) : decodeNumber n = .ok (decode (BitVec.ofNat 9 n)) :=
  if_pos (decide_eq_true h)

theorem decodeNumber_of_gt {n : Nat} (h : 511 < n) : decodeNumber n = .error .notNineBits := by
  have hwf : ¬ commandNumberWf n = true := by simpa [commandNumberWf] using h
  rw [decodeNumber, if_neg hwf]

/-- An operation's own word is spelled by its own row. -/
theorem row_spells_encode (i : Instr) : i.row.spells (encode i) = true := by
  rw [spells_iff_row_decode (row_mem_opcodeMap i), decode_encode]

/-- Settles O1: decoding undoes encoding, and the other two forms are read through the word. -/
theorem decodeOfEncodeGivesTheOperationBack : Obligations.DecodeOfEncodeGivesTheOperationBack := by
  intro i _
  exact ⟨decode_encode i, by rw [decodeNumber_toNat, decode_encode], row_spells_encode i⟩

/-- Settles O5: the check on the number decides. -/
theorem numbersUpTo511AreTheCommands : Obligations.NumbersUpTo511AreTheCommands := fun _ =>
  ⟨decodeNumber_of_le, decodeNumber_of_gt⟩

/-! ### The byte of `UPDATE` -/

/-- The words of `UPDATE d`: bit 8 is clear, so such a word has the value of `d` (`30_encoding.md` R37). -/
theorem decode_eq_update_iff_toNat (c : CmdWord) (d : Byte) : decode c = .update d ↔ c.toNat = d.toNat := by
  have hvalue : (encode (.update d)).toNat = d.toNat := by
    rw [encode_update]
    exact BitVec.toNat_setWidth_of_le (by decide)
  rw [← hvalue, BitVec.toNat_inj]
  constructor
  · intro h
    obtain ⟨hop, rfl⟩ := (decode_eq_update_iff c d).mp h
    have hzero : opField c = 0 := (BitVec.eq_zero_or_eq_one _).resolve_right hop
    rw [encode, ← hzero, commandWord_fields]
  · rintro rfl
    exact decode_encode _

/-- Settles O4: the word of `UPDATE d` has the value of `d`, and its data field is bits 7 to 0. -/
theorem updateByteIsTheLowEightCommandBits : Obligations.UpdateByteIsTheLowEightCommandBits := by
  refine ⟨fun d => ?_, fun c d h j hj => ?_⟩
  · have hdecode : decode (commandWord 0 d) = .update d := decode_encode (.update d)
    exact ⟨hdecode, (decode_eq_update_iff_toNat _ d).mp hdecode⟩
  · obtain ⟨-, rfl⟩ := (decode_eq_update_iff c d).mp h
    simp [dataField, hj]

/-- Settles O6: the seven words are decoded. -/
theorem writtenOutWordsDecode : Obligations.WrittenOutWordsDecode := by
  unfold Obligations.WrittenOutWordsDecode
  decide

/-! ### The word presented next -/

/-- A word's number fits into 16 bits. -/
theorem toNat_mod_two_pow_sixteen (c : CmdWord) : c.toNat % 2 ^ 16 = c.toNat :=
  Nat.mod_eq_of_lt (c.isLt.trans (by decide))

theorem decodeTableWord_toNat (c : CmdWord) : decodeTableWord 16 c.toNat = some (decode c) := by
  rw [decodeTableWord, toNat_mod_two_pow_sixteen, decodeNumber_toNat]

theorem withFetchWord_toNat (s : State) (c : CmdWord) : s.withFetchWord 16 c.toNat = s.drive (present c) := by
  rw [State.withFetchWord, State.presentNumber, toNat_mod_two_pow_sixteen, if_pos (commandNumberWf_toNat c),
    ofNat_nine_toNat]

/-- The edge that is driven before all others is the next step. -/
theorem step_drive (s : State) (p : PortIn) : step (s.drive p) = react p s :=
  step_cons (State.withInputs_inputs ..)

/-- Settles O8: the word's number is the word, and the step reacts to it. -/
theorem presentedWordIsTheNextOperationRun : Obligations.PresentedWordIsTheNextOperationRun := by
  intro s i _
  refine ⟨by rw [decodeTableWord_toNat, decode_encode], ?_⟩
  rw [withFetchWord_toNat, step_drive, react_command (present_accepts _), present_cmd, decode_encode]

end Sys2Proof.Machine
end
section
/-! PROOFS. One operation, one edge and one step (`10_state.md` R10 to R19, `60_exceptions.md` R78): the outcomes by the
kind of drive, the one way to be refused, what is left unchanged, and the two invariants of every step. -/

namespace Sys2Proof.Machine

variable {s t : State} {p : PortIn} {rest : List PortIn}

/-! ### Reading the accumulator -/

theorem sampleCrc_of_acc {a : Byte} (h : s.engine.acc = some a) : s.sampleCrc = .ok a := by
  simp [State.sampleCrc, h]

theorem sampleCrc_of_no_acc (h : s.engine.acc = none) : s.sampleCrc = .error .sampleWithoutValue := by
  simp [State.sampleCrc, h]

theorem exec_update_of_no_acc (h : s.engine.acc = none) (d : Byte) :
    exec (.update d) s = .refused .updateWithoutValue := by
  simp [exec, execUpdate, withOldAcc, h]

/-! ### Operations -/

/-- An operation that completes writes `acc` and nothing else. -/
theorem exists_writeAcc_of_exec {i : Instr} (h : exec i s = .next t) : ∃ v, t = s.writeAcc v := by
  obtain ⟨-, rfl⟩ | ⟨d, a, -, -, rfl⟩ := exec_next h
  · exact ⟨_, rfl⟩
  · exact ⟨_, rfl⟩

/-- Settles O17: what completes is one write of the accumulator. -/
theorem operationsWriteNothingButTheAccumulator : Obligations.OperationsWriteNothingButTheAccumulator := by
  intro i s t h
  obtain ⟨v, rfl⟩ := exists_writeAcc_of_exec h
  exact ⟨rfl, rfl⟩

/-- The one way an operation is refused (`60_exceptions.md` R78). -/
theorem exec_eq_refused_iff (i : Instr) (s : State) (r : Refusal) :
    exec i s = .refused r ↔ r = .updateWithoutValue ∧ s.engine.acc = none ∧ ∃ d, i = .update d := by
  cases i with
  | init => simp [exec_init]
  | update d =>
    cases hacc : s.engine.acc with
    | none => simp [exec_update_of_no_acc hacc, eq_comm]
    | some a => simp [exec_update hacc]

/-- Settles O13: the accumulator's value makes `UPDATE` complete, and the word of `UPDATE d` has the value of `d`. -/
theorem updateAbsorbsItsByte : Obligations.UpdateAbsorbsItsByte :=
  ⟨fun _ _ d hacc => exec_update hacc d, decode_eq_update_iff_toNat, by decide⟩

/-- Settles O15: neither `UPDATE` nor a sample has a value to read. -/
theorem withoutAValueUpdateAndSamplingAreRefused : Obligations.WithoutAValueUpdateAndSamplingAreRefused :=
  fun _ hacc => ⟨exec_update_of_no_acc hacc, sampleCrc_of_no_acc hacc, hacc⟩

/-- Settles O16: reset and `INIT` write the same constant, from which one `UPDATE` gives the checksum of its byte, and
power-up has no value. -/
theorem resetAndPowerUpValues : Obligations.ResetAndPowerUpValues :=
  ⟨rfl, sampleCrc_of_acc State.reset_acc, rfl, fun s => ⟨s.writeAcc initValue, exec_init s, rfl⟩,
    fun d => ⟨State.reset.writeAcc (crc8 [d]), exec_update State.reset_acc d, rfl⟩, rfl,
    exec_update_of_no_acc State.powerUp_acc, exec_init State.powerUp⟩

/-! ### The three kinds of edge -/

/-- A presented command is accepted wherever there is no reset. -/
theorem accepts_of_valid (hrst : p.rst = false) (hvalid : p.cmdValid = true) : p.accepts = true := by
  simp [PortIn.accepts_eq, hrst, hvalid]

theorem accepts_of_rst (h : p.rst = true) : p.accepts = false := by
  simp [PortIn.accepts_eq, h]

theorem cmdReady_eq_false (h : p.rst = true) : p.cmdReady = false := by
  simp [PortIn.cmdReady, h]

theorem cmdReady_eq_true (h : p.rst = false) : p.cmdReady = true := by
  simp [PortIn.cmdReady, h]

/-- A reset does what an `INIT` does. -/
theorem resetEngine_eq (s : State) : s.resetEngine = s.writeAcc initValue := rfl

theorem step_reset (hin : s.inputs = p :: rest) (hrst : p.rst = true) :
    step s = .next ((s.withInputs rest).writeAcc initValue) := by
  rw [step_cons hin, react_reset hrst, resetEngine_eq]

theorem step_idle (hin : s.inputs = p :: rest) (hrst : p.rst = false) (hvalid : p.cmdValid = false) :
    step s = .next (s.withInputs rest) := by
  rw [step_cons hin, react_idle hrst hvalid]

theorem step_command (hin : s.inputs = p :: rest) (hrst : p.rst = false) (hvalid : p.cmdValid = true) :
    step s = exec (decode p.cmd) (s.withInputs rest) := by
  rw [step_cons hin, react_command (accepts_of_valid hrst hvalid)]

/-- Settles O7: without a reset a presented command is accepted. -/
theorem acceptedCommandRunsItsOperation : Obligations.AcceptedCommandRunsItsOperation :=
  fun _ _ _ hin hrst hvalid => ⟨accepts_of_valid hrst hvalid, step_command hin hrst hvalid⟩

/-- Settles O9: a reset edge accepts nothing and writes what `INIT` writes. -/
theorem resetLoadsFFWhateverElseIsPresented : Obligations.ResetLoadsFFWhateverElseIsPresented :=
  ⟨fun _ _ _ hin hrst => ⟨cmdReady_eq_false hrst, accepts_of_rst hrst, step_reset hin hrst, step_reset hin hrst⟩,
    rfl, rfl, fun _ => cmdReady_eq_true⟩

/-- Settles O10: an idle edge takes the drive alone. -/
theorem idleEdgeKeepsTheAccumulator : Obligations.IdleEdgeKeepsTheAccumulator :=
  fun _ p _ hin hrst hvalid => ⟨by simp [PortIn.accepts_eq, hvalid], step_idle hin hrst hvalid⟩

/-- Settles O11: the engine waits. -/
theorem nothingPresentedNothingChanges : Obligations.NothingPresentedNothingChanges :=
  fun _ hin => step_nil hin

/-- Settles O18: the rows are the three kinds of edge, and a command is `INIT` or `UPDATE`. -/
theorem stepHasTheOutcomesOfTheTable : Obligations.StepHasTheOutcomesOfTheTable := by
  refine fun s p rest hin => ⟨step_reset hin, step_idle hin, fun hrst hvalid => ?_, fun _ => sampleCrc_of_acc⟩
  rw [step_command hin hrst hvalid]
  refine ⟨fun hinit => ?_, fun d hupdate => ⟨fun a hacc => ?_, fun hacc => ?_⟩⟩
  · rw [hinit]
    exact exec_init (s.withInputs rest)
  · rw [hupdate]
    exact exec_update (s := s.withInputs rest) hacc d
  · rw [hupdate]
    exact exec_update_of_no_acc (s := s.withInputs rest) hacc d

/-! ### The one way to stop -/

/-- The one way an edge is refused. -/
theorem react_eq_refused_iff (p : PortIn) (s : State) (r : Refusal) :
    react p s = .refused r ↔
      r = .updateWithoutValue ∧ s.engine.acc = none ∧ p.accepts = true ∧ ∃ d, decode p.cmd = .update d := by
  cases hrst : p.rst with
  | true => simp [react_reset hrst, accepts_of_rst hrst]
  | false =>
    cases ha : p.accepts with
    | true => simp [react_command ha, exec_eq_refused_iff]
    | false => simp [react, hrst, ha]

/-- The one way a step is refused. -/
theorem step_eq_refused_iff (s : State) (r : Refusal) :
    step s = .refused r ↔
      r = .updateWithoutValue ∧ s.engine.acc = none ∧
        ∃ p rest d, s.inputs = p :: rest ∧ p.accepts = true ∧ decode p.cmd = .update d := by
  cases hin : s.inputs with
  | nil => simp [step_nil hin, wait]
  | cons p rest => simp [step_cons hin, react_eq_refused_iff]

/-- Settles O19: there is no fault to name, and the edge is refused in one way. -/
theorem stepStopsOnlyOnUpdateWithoutAValue : Obligations.StepStopsOnlyOnUpdateWithoutAValue :=
  fun s => ⟨(fun f => nomatch f), step_eq_refused_iff s⟩

/-! ### Writing the accumulator -/

/-- Settles O24: an edge that is neither a reset nor an accepted command keeps the engine. -/
theorem onlyCommandsAndResetChangeTheAccumulator : Obligations.OnlyCommandsAndResetChangeTheAccumulator := by
  intro s t hstep hne
  obtain ⟨-, rfl⟩ | ⟨p, rest, hin, hreact⟩ := step_next hstep
  · exact absurd rfl hne
  · refine ⟨p, rest, hin, ?_⟩
    obtain ⟨hrst, -⟩ | ⟨ha, -⟩ | ⟨-, -, rfl⟩ := react_next hreact
    · exact .inl hrst
    · exact .inr ha
    · exact absurd rfl hne

/-! ### Once `acc` has a value -/

/-- Settles O21: reset loads `0xFF`. -/
theorem resetStateIsInitialised : Obligations.ResetStateIsInitialised := rfl

theorem initialised_writeAcc (s : State) (v : Byte) : Initialised (s.writeAcc v) := rfl

/-- An edge that completes keeps `acc` or writes it. -/
theorem initialised_of_react (h : Initialised s) (hreact : react p s = .next t) : Initialised t := by
  obtain ⟨-, rfl⟩ | ⟨-, hexec⟩ | ⟨-, -, rfl⟩ := react_next hreact
  · exact initialised_writeAcc ..
  · obtain ⟨v, rfl⟩ := exists_writeAcc_of_exec hexec
    exact initialised_writeAcc ..
  · exact h

/-- Settles O22: a step is an edge, or it changes nothing. -/
theorem everyStepKeepsInitialised : Obligations.EveryStepKeepsInitialised := by
  intro s t h hstep
  obtain ⟨-, rfl⟩ | ⟨p, rest, -, hreact⟩ := step_next hstep
  · exact h
  · exact initialised_of_react (s := s.withInputs rest) h hreact

/-! ### `acc` is the checksum of the message so far -/

theorem messageStep_reset (h : p.rst = true) (m : Option (List Byte)) : messageStep m p = some [] := by
  simp [messageStep, h]

/-- What is neither a reset nor an accepted command leaves the message as it is. -/
theorem messageStep_idle (hrst : p.rst = false) (ha : p.accepts = false) (m : Option (List Byte)) :
    messageStep m p = m := by
  have hvalid : p.cmdValid = false := by simpa [PortIn.accepts_eq, hrst] using ha
  simp [messageStep, hrst, hvalid]

theorem messageStep_init (ha : p.accepts = true) (hinit : decode p.cmd = .init) (m : Option (List Byte)) :
    messageStep m p = some [] := by
  obtain ⟨hrst, hvalid⟩ : p.rst = false ∧ p.cmdValid = true := by simpa [PortIn.accepts_eq] using ha
  simp [messageStep, hrst, hvalid, hinit]

theorem messageStep_update {d : Byte} (ha : p.accepts = true) (hupdate : decode p.cmd = .update d)
    (m : Option (List Byte)) : messageStep m p = m.map (· ++ [d]) := by
  obtain ⟨hrst, hvalid⟩ : p.rst = false ∧ p.cmdValid = true := by simpa [PortIn.accepts_eq] using ha
  simp [messageStep, hrst, hvalid, hupdate]

theorem holdsChecksumOf_empty (s : State) : HoldsChecksumOf (some []) (s.writeAcc initValue) := by
  rintro _ ⟨⟩
  rfl

/-- One more byte in the message is one `ByteStep` of the accumulator. -/
theorem HoldsChecksumOf.update {m : Option (List Byte)} {a : Byte} (h : HoldsChecksumOf m s)
    (hacc : s.engine.acc = some a) (d : Byte) :
    HoldsChecksumOf (m.map (· ++ [d])) (s.writeAcc (byteStep a d)) := by
  intro bs hbs
  obtain ⟨m', hm, rfl⟩ := Option.map_eq_some_iff.mp hbs
  obtain rfl : a = crc8 m' := Option.some.inj (hacc.symm.trans (h m' hm))
  rw [State.writeAcc_acc, crc8_concat]

/-- The invariant over one edge. -/
theorem holdsChecksumOf_of_react {m : Option (List Byte)} (h : HoldsChecksumOf m s)
    (hreact : react p s = .next t) : HoldsChecksumOf (messageStep m p) t := by
  obtain ⟨hrst, rfl⟩ | ⟨ha, hexec⟩ | ⟨hrst, ha, rfl⟩ := react_next hreact
  · rw [messageStep_reset hrst]
    exact holdsChecksumOf_empty s
  · obtain ⟨hinit, rfl⟩ | ⟨d, a, hupdate, hacc, rfl⟩ := exec_next hexec
    · rw [messageStep_init ha hinit]
      exact holdsChecksumOf_empty s
    · rw [messageStep_update ha hupdate]
      exact h.update hacc d
  · rwa [messageStep_idle hrst ha]

/-- Settles O25: the step is one edge, which takes the message along. -/
theorem everyStepKeepsTheChecksumOfTheMessage : Obligations.EveryStepKeepsTheChecksumOfTheMessage := by
  intro m s t p rest h hin hstep
  rw [step_cons hin] at hstep
  exact holdsChecksumOf_of_react (s := s.withInputs rest) h hstep

end Sys2Proof.Machine
end
section
/-! PROOFS. Runs (`70_reset_and_hazards.md` R87, R91, R92): they take exactly their drives and compose, they complete
from a value in `acc`, they are refused in one way, and `crc` is the checksum of the message so far, which with one source
is that consumer's own. -/

namespace Sys2Proof.Machine

variable {s t : State} {p : PortIn} {ps : List PortIn}

/-! ### Runs one after the other -/

theorem runOn_cons_of_react (h : react p s = .next t) (ps : List PortIn) : runOn (p :: ps) s = runOn ps t := by
  rw [runOn_cons, h]

/-- A completed run of at least one drive: the first edge completed, and then the others did. -/
theorem runOn_cons_next (h : runOn (p :: ps) s = .next t) : ∃ u, react p s = .next u ∧ runOn ps u = .next t := by
  rw [runOn_cons] at h
  cases hreact : react p s with
  | next u => exact ⟨u, rfl, by simpa [hreact] using h⟩
  | fault f => simp [hreact] at h
  | refused r => simp [hreact] at h

/-- A completed run takes its own drives and no others. -/
theorem runOn_next_inputs (h : runOn ps s = .next t) : t.inputs = s.inputs := by
  induction ps generalizing s with
  | nil =>
    cases h
    rfl
  | cons p ps ih =>
    obtain ⟨u, hreact, hrun⟩ := runOn_cons_next h
    rw [ih hrun, react_next_inputs hreact]

/-- After a completed run the drives that follow run from where it ended. -/
theorem runOn_append_of_next (h : runOn ps s = .next t) (qs : List PortIn) : runOn (ps ++ qs) s = runOn qs t := by
  induction ps generalizing s with
  | nil =>
    cases h
    rfl
  | cons p ps ih =>
    obtain ⟨u, hreact, hrun⟩ := runOn_cons_next h
    rw [List.cons_append, runOn_cons_of_react hreact, ih hrun]

/-- Settles O29: both parts go along the first run. -/
theorem runsComposeInOrder : Obligations.RunsComposeInOrder :=
  fun _ qs _ _ h => ⟨runOn_next_inputs h, runOn_append_of_next h qs⟩

/-! ### Runs complete -/

/-- Where `acc` has a value every edge completes. -/
theorem exists_react_of_initialised (h : Initialised s) (p : PortIn) : ∃ t, react p s = .next t := by
  cases hreact : react p s with
  | next t => exact ⟨t, rfl⟩
  | fault f => nomatch f
  | refused r =>
    obtain ⟨-, hacc, -⟩ := (react_eq_refused_iff p s r).mp hreact
    simp [Initialised, hacc] at h

theorem exists_runOn_of_initialised (h : Initialised s) (ps : List PortIn) : ∃ t, runOn ps s = .next t := by
  induction ps generalizing s with
  | nil => exact ⟨s, rfl⟩
  | cons p ps ih =>
    obtain ⟨u, hreact⟩ := exists_react_of_initialised h p
    rw [runOn_cons_of_react hreact]
    exact ih (initialised_of_react h hreact)

/-- A run whose first event starts a message completes from every state: idle edges before it change nothing. -/
theorem exists_runOn_of_startsFresh (h : startsFresh ps = true) (s : State) : ∃ t, runOn ps s = .next t := by
  induction ps with
  | nil => cases h
  | cons p ps ih =>
    cases hevent : p.isEvent with
    | false =>
      rw [runOn_cons_of_react (react_not_event hevent s)]
      exact ih (startsFresh_idle hevent ps ▸ h)
    | true =>
      obtain ⟨u, hreact, hu⟩ := react_startsMessage (startsFresh_event hevent ps ▸ h) s
      rw [runOn_cons_of_react hreact]
      exact exists_runOn_of_initialised hu ps

/-- Premise (1) of `70_reset_and_hazards.md` R92 is enough for a run to complete. -/
theorem InitialisedRun.exists_runOn (h : InitialisedRun ps s) : ∃ t, runOn ps s = .next t :=
  h.elim (exists_runOn_of_startsFresh · s) (exists_runOn_of_initialised · ps)

/-- Where `acc` has a value a step completes, keeps it so and takes the next drive where there is one. -/
theorem exists_step_of_initialised (h : Initialised s) :
    ∃ t, step s = .next t ∧ Initialised t ∧ t.inputs = s.inputs.tail := by
  cases hin : s.inputs with
  | nil => exact ⟨s, step_nil hin, h, hin⟩
  | cons p rest =>
    have hrest : Initialised (s.withInputs rest) := h
    obtain ⟨t, hreact⟩ := exists_react_of_initialised hrest p
    exact ⟨t, (step_cons hin).trans hreact, initialised_of_react hrest hreact, react_next_inputs hreact⟩

theorem run_succ_of_step (h : step s = .next t) (n : Nat) : run (n + 1) s = run n t := by
  rw [run_succ, h]

/-- Settles O23: each step leaves a state from which the next completes too. -/
theorem initialisedMachineNeverStops : Obligations.InitialisedMachineNeverStops := by
  intro n
  induction n with
  | zero => exact fun s h => ⟨s, rfl, h, rfl⟩
  | succ n ih =>
    intro s h
    obtain ⟨u, hstep, hu, hin⟩ := exists_step_of_initialised h
    obtain ⟨t, hrun, ht, hdrop⟩ := ih u hu
    exact ⟨t, (run_succ_of_step hstep n).trans hrun, ht, by rw [hdrop, hin, List.drop_tail]⟩

/-! ### The one way a run is refused -/

/-- An event that starts no message is an `UPDATE`. -/
theorem exists_update_of_not_startsMessage (hevent : p.isEvent = true) (hstart : p.startsMessage = false) :
    p.accepts = true ∧ ∃ d, decode p.cmd = .update d := by
  obtain ⟨hrst, hinit⟩ : p.rst = false ∧ (p.accepts = true → decode p.cmd ≠ .init) := by
    simpa [PortIn.startsMessage] using hstart
  have ha : p.accepts = true := by simpa [PortIn.isEvent, hrst] using hevent
  refine ⟨ha, ?_⟩
  cases hdecode : decode p.cmd with
  | init => exact absurd hdecode (hinit ha)
  | update d => exact ⟨d, rfl⟩

/-- Without a value, the first event refuses the run where it starts no message. -/
theorem runOn_refused_of_not_startsFresh (hacc : s.engine.acc = none) (hfresh : startsFresh ps = false)
    (hevent : ∃ p ∈ ps, p.isEvent = true) : runOn ps s = .refused .updateWithoutValue := by
  induction ps with
  | nil => simp at hevent
  | cons p ps ih =>
    cases hp : p.isEvent with
    | false =>
      rw [runOn_cons_of_react (react_not_event hp s)]
      exact ih (startsFresh_idle hp ps ▸ hfresh) (by simpa [hp] using hevent)
    | true =>
      obtain ⟨ha, hupdate⟩ := exists_update_of_not_startsMessage hp (startsFresh_event hp ps ▸ hfresh)
      rw [runOn_cons, (react_eq_refused_iff p s .updateWithoutValue).mpr ⟨rfl, hacc, ha, hupdate⟩]

/-- Settles O58: a run that misses premise (1) finds no value in `acc` and starts no message. -/
theorem uninitialisedRunIsRefused : Obligations.UninitialisedRunIsRefused := by
  intro ps s hmiss hevent
  obtain ⟨hfresh, hacc⟩ : startsFresh ps = false ∧ s.engine.acc = none := by
    simpa [InitialisedRun, Initialised] using hmiss
  exact runOn_refused_of_not_startsFresh hacc hfresh hevent

/-! ### The message of a run -/

theorem messageAfter_cons (m : Option (List Byte)) (p : PortIn) (ps : List PortIn) :
    messageAfter m (p :: ps) = messageAfter (messageStep m p) ps := rfl

/-- The invariant over a whole run. -/
theorem holdsChecksumOf_of_runOn {m : Option (List Byte)} (h : HoldsChecksumOf m s) (hrun : runOn ps s = .next t) :
    HoldsChecksumOf (messageAfter m ps) t := by
  induction ps generalizing s m with
  | nil =>
    cases hrun
    exact h
  | cons p ps ih =>
    obtain ⟨u, hreact, hrest⟩ := runOn_cons_next hrun
    exact ih (holdsChecksumOf_of_react h hreact) hrest

/-- Of the message before the first `INIT` or reset nothing is claimed. -/
theorem holdsChecksumOf_none (s : State) : HoldsChecksumOf none s := nofun

/-- A completed run in which a message began leaves its checksum. -/
theorem crc_of_messageAfter {bs : List Byte} (hrun : runOn ps s = .next t) (hm : messageAfter none ps = some bs) :
    t.crc = some (crc8 bs) :=
  holdsChecksumOf_of_runOn (holdsChecksumOf_none s) hrun bs hm

/-- Settles O26: the invariant goes along the run from no message, and premise (1) makes the run complete. -/
theorem crcIsTheChecksumOfTheMessageSoFar : Obligations.CrcIsTheChecksumOfTheMessageSoFar :=
  fun _ _ => ⟨fun _ _ hrun hm => ⟨crc_of_messageAfter hrun hm, runOn_next_inputs hrun⟩, InitialisedRun.exists_runOn⟩

/-! ### One source -/

/-- With one source, the drives of others are idle edges and leave the message as it is. -/
theorem messageAfter_ownDrives {x : Nat} {ts : List SourcedDrive} (h : SingleSource x ts)
    (m : Option (List Byte)) : messageAfter m (ownDrives x ts) = messageAfter m (ts.map (·.ports)) := by
  induction ts generalizing m with
  | nil => rfl
  | cons d ts ih =>
    obtain ⟨hd, hts⟩ : (d.ports.accepts = true → d.consumer = x) ∧ SingleSource x ts := List.forall_mem_cons.mp h
    cases hown : (d.ports.rst || d.consumer == x) with
    | true =>
      have hcons : ownDrives x (d :: ts) = d.ports :: ownDrives x ts := by simp [ownDrives, hown]
      rw [hcons, List.map_cons, messageAfter_cons, messageAfter_cons, ih hts]
    | false =>
      obtain ⟨hrst, hother⟩ : d.ports.rst = false ∧ d.consumer ≠ x := by simpa using hown
      have hskip : ownDrives x (d :: ts) = ownDrives x ts := by simp [ownDrives, hown]
      have ha : d.ports.accepts = false := by simpa using mt hd hother
      rw [hskip, List.map_cons, messageAfter_cons, messageStep_idle hrst ha, ih hts]

/-- Settles O56: the consumer's own message is the message of the run, which completes. -/
theorem singleSourceRunGivesTheConsumersOwnChecksum :
    Obligations.SingleSourceRunGivesTheConsumersOwnChecksum := by
  intro x ts s bs hrun hsource hm
  obtain ⟨t, ht⟩ := hrun.exists_runOn
  rw [messageAfter_ownDrives hsource] at hm
  exact ⟨t, ht, crc_of_messageAfter ht hm⟩

end Sys2Proof.Machine
end
section
/-! PROOFS. `ByteStep` and `T` as maps of the 256 values (`40_checksum_ops.md` section 5, R52): bijections, and the
cycles of `T`, which the parity of the bits tells apart. -/

namespace Sys2Proof.Machine

/-! ### Bijections -/

/-- Settles O36: `ByteStep` is a bijection in each argument, and `UPDATE` writes what it gives. -/
theorem byteStepIsABijectionInEachArgument : Obligations.ByteStepIsABijectionInEachArgument :=
  ⟨byteStep_bijective_left, byteStep_bijective_right, byteStep_eq_zero_iff 0x00,
    fun a => (byteStep_bijective_right a).existsUnique a, fun _ _ v hacc => existsUnique_update_to hacc v⟩

/-! ### Fixed points -/

/-- Absorbing a zero byte is `T`. -/
theorem byteStep_zero_comm (a : Byte) : byteStep a 0x00 = byteStep 0x00 a := by
  rw [byteStep_eq_bitSteps, BitVec.xor_comm, ← byteStep_eq_bitSteps]

theorem byteStep_zero_eq_self_iff (c : Byte) : byteStep 0x00 c = c ↔ c = 0x00 ∨ c = 0xEF := by
  revert c
  decide +kernel

/-- Settles O14: a zero byte keeps the fixed points of `T`, and one byte alone leads from `0xFF` to `0xFF`. -/
theorem zeroByteKeepsExactlyTwoAccumulators : Obligations.ZeroByteKeepsExactlyTwoAccumulators := by
  refine ⟨fun a => ?_, byteStep_self, fun d => ?_⟩
  · rw [byteStep_zero_comm, byteStep_zero_eq_self_iff]
  · have hkeep : byteStep 0xFF 0x03 = 0xFF := by decide
    calc byteStep 0xFF d = 0xFF
        ↔ byteStep 0xFF d = byteStep 0xFF 0x03 := by rw [hkeep]
      _ ↔ d = 0x03 := (byteStep_bijective_right 0xFF).injective.eq_iff

/-! ### The period of `T` -/

/-- `T` is `ITER` iterations. -/
theorem byteStep_zero_eq_bitSteps : byteStep 0x00 = bitSteps iter :=
  funext fun _ => congrArg (bitSteps iter) BitVec.zero_xor

theorem byteStep_zero_iterate_127 (c : Byte) : (byteStep 0x00)^[127] c = c := by
  rw [byteStep_zero_eq_bitSteps]
  exact bitSteps_iter_iterate_127 c

/-- 127 is prime, so a value that `T` moves comes back after 127 applications and not before. -/
theorem minimalPeriod_byteStep_zero {c : Byte} (h : byteStep 0x00 c ≠ c) :
    Function.minimalPeriod (byteStep 0x00) c = 127 :=
  have hprime : Fact (Nat.Prime 127) := ⟨by norm_num⟩
  Function.minimalPeriod_eq_prime_iff.mpr ⟨byteStep_zero_iterate_127 c, h⟩

/-! ### Parity -/

/-- The XOR of the bits at the positions `js`. -/
def xorOfBits (js : List Nat) (a : Byte) : Bool := js.foldr (fun j b => a.getLsbD j ^^ b) false

theorem xorOfBits_xor (js : List Nat) (a b : Byte) : xorOfBits js (a ^^^ b) = (xorOfBits js a ^^ xorOfBits js b) := by
  induction js with
  | nil => rfl
  | cons j js ih =>
    simp only [xorOfBits, List.foldr_cons, BitVec.getLsbD_xor] at ih ⊢
    rw [ih, Bool.xor_assoc, Bool.xor_assoc, Bool.xor_left_comm (b.getLsbD j)]

/-- Whether an odd number of bits is set. -/
def parity (a : Byte) : Bool := xorOfBits (List.range 8) a

theorem parity_xor (a b : Byte) : parity (a ^^^ b) = (parity a ^^ parity b) := xorOfBits_xor ..

/-- An iteration that drops a set bit XORs in the three bits of `POLY`. -/
theorem parity_bitStep (a : Byte) : parity (bitStep a) = parity a := by
  revert a
  decide

theorem parity_bitSteps (n : Nat) (a : Byte) : parity (bitSteps n a) = parity a := by
  induction n generalizing a with
  | zero => rfl
  | succ n ih => rw [bitSteps_succ, ih, parity_bitStep]

theorem parity_byteStep_zero_iterate (k : Nat) (c : Byte) : parity ((byteStep 0x00)^[k] c) = parity c := by
  induction k generalizing c with
  | zero => rfl
  | succ k ih => rw [Function.iterate_succ_apply, ih, byteStep_zero_eq_bitSteps, parity_bitSteps]

/-! ### The two cycles -/

/-- The values of one parity that `T` moves. -/
def movedOfParity (b : Bool) : Finset Byte := {c | parity c = b ∧ byteStep 0x00 c ≠ c}

theorem mem_movedOfParity {b : Bool} {c : Byte} :
    c ∈ movedOfParity b ↔ parity c = b ∧ byteStep 0x00 c ≠ c := by
  simp [movedOfParity]

/-- Each parity has 128 values, one of which is a fixed point. -/
theorem card_movedOfParity (b : Bool) : (movedOfParity b).card = 127 := by
  revert b
  decide +kernel

/-- The cycle of a value under `T`. -/
def cycleOf (x : Byte) : Finset Byte := (Finset.range 127).image fun k => (byteStep 0x00)^[k] x

theorem card_cycleOf {x : Byte} (h : byteStep 0x00 x ≠ x) : (cycleOf x).card = 127 := by
  have hinj : Set.InjOn (fun k => (byteStep 0x00)^[k] x) (Finset.range 127) := by
    rw [Finset.coe_range, ← minimalPeriod_byteStep_zero h]
    exact Function.iterate_injOn_Iio_minimalPeriod
  rw [cycleOf, Finset.card_image_of_injOn hinj, Finset.card_range]

/-- A moved value stays moved, since `T` is injective. -/
theorem byteStep_zero_iterate_moved {x : Byte} (h : byteStep 0x00 x ≠ x) (k : Nat) :
    byteStep 0x00 ((byteStep 0x00)^[k] x) ≠ (byteStep 0x00)^[k] x := by
  rw [← Function.iterate_succ_apply' (byteStep 0x00), Function.iterate_succ_apply]
  exact (byteStep_bijective_right 0x00).injective.iterate k |>.ne h

/-- The cycle of a moved value has as many values as its parity has moved ones, so it holds them all. -/
theorem cycleOf_eq_movedOfParity {x : Byte} (h : byteStep 0x00 x ≠ x) : cycleOf x = movedOfParity (parity x) := by
  refine Finset.eq_of_subset_of_card_le (fun c hc => ?_) (by rw [card_cycleOf h, card_movedOfParity])
  obtain ⟨k, -, rfl⟩ := Finset.mem_image.mp hc
  exact mem_movedOfParity.mpr ⟨parity_byteStep_zero_iterate k x, byteStep_zero_iterate_moved h k⟩

/-- A moved value leads to exactly the moved values of its parity. -/
theorem exists_iterate_eq_iff {x c : Byte} (hx : byteStep 0x00 x ≠ x) (hc : byteStep 0x00 c ≠ c) :
    (∃ k, (byteStep 0x00)^[k] x = c) ↔ parity x = parity c := by
  constructor
  · rintro ⟨k, rfl⟩
    exact (parity_byteStep_zero_iterate k x).symm
  · intro hparity
    have hmem : c ∈ cycleOf x := by
      rw [cycleOf_eq_movedOfParity hx]
      exact mem_movedOfParity.mpr ⟨hparity.symm, hc⟩
    obtain ⟨k, -, hk⟩ := Finset.mem_image.mp hmem
    exact ⟨k, hk⟩

/-- Settles O37: 127 is prime, and the two cycles are the moved values of odd parity, as `0x01`, and of even, as
`0x03`. -/
theorem tableHasTwoFixedPointsAndTwoCyclesOf127 : Obligations.TableHasTwoFixedPointsAndTwoCyclesOf127 := by
  have hmoved (c : Byte) (h0 : c ≠ 0x00) (hEF : c ≠ 0xEF) : byteStep 0x00 c ≠ c :=
    mt (byteStep_zero_eq_self_iff c).mp (not_or.mpr ⟨h0, hEF⟩)
  refine ⟨byteStep_zero_eq_self_iff, byteStep_zero_iterate_127, fun c k h0 hEF hpos hlt hback => ?_,
    0x01, 0x03, fun c h0 hEF => ?_⟩
  · have hdvd : Function.minimalPeriod (byteStep 0x00) c ∣ k :=
      Function.isPeriodicPt_iff_minimalPeriod_dvd.mp hback
    rw [minimalPeriod_byteStep_zero (hmoved c h0 hEF)] at hdvd
    exact absurd (Nat.le_of_dvd hpos hdvd) (by omega)
  · rw [exists_iterate_eq_iff (hmoved 0x01 (by decide) (by decide)) (hmoved c h0 hEF),
      exists_iterate_eq_iff (hmoved 0x03 (by decide) (by decide)) (hmoved c h0 hEF),
      show parity 0x01 = true from rfl, show parity 0x03 = false from rfl]
    cases parity c <;> decide

/-! ### The order of the bytes -/

/-- Settles O46: the two checksums are evaluated, and a list of equal bytes is its own reverse. -/
theorem checksumDependsOnByteOrder : Obligations.ChecksumDependsOnByteOrder :=
  ⟨by decide +kernel, by decide +kernel, fun _ => rfl⟩

end Sys2Proof.Machine
end
section
/-! PROOFS. Which bit errors a checksum notices (`40_checksum_ops.md` section 5, R56): an inverted bit XORs into the
checksum the byte `0x01` after as many iterations as bits follow it, plus eight, and those bytes decide. -/

namespace Sys2Proof.Machine

/-! ### Iterations of a byte with one bit set -/

theorem bitSteps_add (m n : Nat) (a : Byte) : bitSteps (m + n) a = bitSteps m (bitSteps n a) := by
  simp only [bitSteps_eq_iterate, Function.iterate_add_apply]

/-- While no set bit is dropped an iteration is a shift. -/
theorem bitSteps_one {j : Nat} (h : j < 8) : bitSteps j 1#8 = 1#8 <<< j := by
  revert j
  decide

/-- Iterations bring nothing but zero to zero. -/
theorem bitSteps_eq_zero_iff (n : Nat) (a : Byte) : bitSteps n a = 0 ↔ a = 0 := by
  constructor
  · intro h
    exact bitSteps_injective n (h.trans (bitSteps_zero n).symm)
  · rintro rfl
    exact bitSteps_zero n

/-- The iterations of `0x01` come back to it after 127 and not before, since 127 is prime. -/
theorem bitSteps_one_eq_one_iff (n : Nat) : bitSteps n 1#8 = 1#8 ↔ 127 ∣ n := by
  have hprime : Fact (Nat.Prime 127) := ⟨by norm_num⟩
  have hback : Function.IsPeriodicPt bitStep 127 1#8 := by
    rw [Function.IsPeriodicPt, ← bitSteps_eq_iterate]
    exact bitSteps_127 1#8
  have hmoved : ¬ Function.IsFixedPt bitStep 1#8 := by
    unfold Function.IsFixedPt
    decide
  rw [← Function.minimalPeriod_eq_prime_iff.mpr ⟨hback, hmoved⟩, bitSteps_eq_iterate]
  exact Function.isPeriodicPt_iff_minimalPeriod_dvd

/-! ### What inverted bits XOR into the checksum -/

/-- The XOR of the bytes of a list. -/
def xorSum (xs : List Byte) : Byte := xs.foldr (· ^^^ ·) 0

@[simp] theorem xorSum_nil : xorSum [] = 0 := rfl
@[simp] theorem xorSum_cons (x : Byte) (xs : List Byte) : xorSum (x :: xs) = x ^^^ xorSum xs := rfl

theorem bitSteps_xorSum (n : Nat) (xs : List Byte) : bitSteps n (xorSum xs) = xorSum (xs.map (bitSteps n)) := by
  induction xs with
  | nil => exact bitSteps_zero n
  | cons x xs ih => rw [xorSum_cons, bitSteps_xor, ih, List.map_cons, xorSum_cons]

/-- A difference in the accumulator runs through the rest of the message unmixed with its bytes. -/
theorem fold_xor_left (a e : Byte) (bs : List Byte) :
    fold (a ^^^ e) bs = fold a bs ^^^ bitSteps (8 * bs.length) e := by
  induction bs generalizing a e with
  | nil => rfl
  | cons b bs ih =>
    have hargs : (a ^^^ e) ^^^ b = (a ^^^ b) ^^^ e := by ac_rfl
    rw [fold_cons, fold_cons, byteStep_eq_bitSteps, hargs, bitSteps_xor, ← byteStep_eq_bitSteps, ih, ← bitSteps_add,
      List.length_cons, Nat.mul_succ, iter]

@[simp] theorem length_invertBit (m : List Byte) (i j : Nat) : (invertBit m i j).length = m.length :=
  List.length_modify ..

@[simp] theorem length_invertMessageBit (m : List Byte) (p : Nat) : (invertMessageBit m p).length = m.length :=
  length_invertBit ..

theorem invertBit_cons_zero (b : Byte) (m : List Byte) (j : Nat) :
    invertBit (b :: m) 0 j = (b ^^^ (1#8 <<< j)) :: m := rfl

theorem invertBit_cons_succ (b : Byte) (m : List Byte) (i j : Nat) :
    invertBit (b :: m) (i + 1) j = b :: invertBit m i j := rfl

/-- An inverted bit goes through `j` iterations as a shift, and then through those of its own byte and all
later ones. -/
theorem fold_invertBit (a : Byte) {m : List Byte} {i j : Nat} (hi : i < m.length) (hj : j < 8) :
    fold a (invertBit m i j) = fold a m ^^^ bitSteps (8 * (m.length - i) + j) 1#8 := by
  induction m generalizing a i with
  | nil => cases hi
  | cons b m ih =>
    cases i with
    | zero =>
      rw [invertBit_cons_zero, fold_cons, fold_cons, byteStep_eq_bitSteps, ← BitVec.xor_assoc, bitSteps_xor,
        ← byteStep_eq_bitSteps, fold_xor_left, ← bitSteps_one hj, ← bitSteps_add, ← bitSteps_add, List.length_cons,
        Nat.sub_zero, Nat.mul_succ, iter, Nat.add_assoc]
    | succ i =>
      rw [invertBit_cons_succ, fold_cons, fold_cons, ih _ (Nat.lt_of_succ_lt_succ hi), List.length_cons,
        Nat.succ_sub_succ]

/-- The bit at position `p` of a message of `len` bytes, inverted, XORs this byte into the checksum. -/
def bitError (len p : Nat) : Byte := bitSteps (8 * len + 7 - p) 1#8

theorem fold_invertMessageBit (a : Byte) {m : List Byte} {p : Nat} (h : p < 8 * m.length) :
    fold a (invertMessageBit m p) = fold a m ^^^ bitError m.length p := by
  have hiterations : 8 * (m.length - p / 8) + (7 - p % 8) = 8 * m.length + 7 - p := by omega
  rw [invertMessageBit, fold_invertBit a (by omega) (by omega), hiterations, bitError]

/-- Inverted bits XOR their bytes into the checksum, whatever the message. -/
theorem crc8_invertMessageBits {m : List Byte} {ps : List Nat} (h : ∀ p ∈ ps, p < 8 * m.length) :
    crc8 (invertMessageBits m ps) = crc8 m ^^^ xorSum (ps.map (bitError m.length)) := by
  induction ps generalizing m with
  | nil => exact BitVec.xor_zero.symm
  | cons p ps ih =>
    obtain ⟨hp, hps⟩ := List.forall_mem_cons.mp h
    calc crc8 (invertMessageBits (invertMessageBit m p) ps)
        = crc8 (invertMessageBit m p) ^^^ xorSum (ps.map (bitError m.length)) := by
          rw [ih (by simpa using hps), length_invertMessageBit]
      _ = crc8 m ^^^ xorSum ((p :: ps).map (bitError m.length)) := by
          rw [crc8, fold_invertMessageBit _ hp, ← crc8, BitVec.xor_assoc, List.map_cons, xorSum_cons]

/-- Inverted bits go unnoticed exactly where their bytes cancel. -/
theorem crc8_invertMessageBits_eq_iff {m : List Byte} {ps : List Nat} (h : ∀ p ∈ ps, p < 8 * m.length) :
    crc8 (invertMessageBits m ps) = crc8 m ↔ xorSum (ps.map (bitError m.length)) = 0 := by
  rw [crc8_invertMessageBits h, xor_left_eq_self_iff]

/-! ### One bit and two bits -/

/-- Settles O41: the iterations never bring `0x01` to zero. -/
theorem singleBitFlipChangesTheChecksum : Obligations.SingleBitFlipChangesTheChecksum := by
  intro m i j hi hj
  rw [crc8, fold_invertBit _ hi hj, ← crc8, Ne, xor_left_eq_self_iff, bitSteps_eq_zero_iff]
  decide

/-- Between two positions lie as many iterations as bits. -/
theorem bitError_eq_bitSteps {len p q : Nat} (hpq : p ≤ q) (hq : q < 8 * len) :
    bitError len p = bitSteps (8 * len + 7 - q) (bitSteps (q - p) 1#8) := by
  have hiterations : 8 * len + 7 - p = (8 * len + 7 - q) + (q - p) := by omega
  rw [bitError, hiterations, bitSteps_add]

/-- Settles O42: two inverted bits cancel where the iterations between them bring `0x01` back. -/
theorem twoBitFlipsUnnoticedExactlyAtMultiplesOf127 :
    Obligations.TwoBitFlipsUnnoticedExactlyAtMultiplesOf127 := by
  intro m p q hpq hq
  have hpositions : ∀ r ∈ [p, q], r < 8 * m.length := by simp [hq, hpq.trans hq]
  calc crc8 (invertMessageBits m [p, q]) = crc8 m
      ↔ bitError m.length p = bitError m.length q := by
        rw [crc8_invertMessageBits_eq_iff hpositions]
        simp
    _ ↔ bitSteps (q - p) 1#8 = 1#8 := by
        rw [bitError_eq_bitSteps hpq.le hq, bitError]
        exact (bitSteps_injective _).eq_iff
    _ ↔ 127 ∣ q - p := bitSteps_one_eq_one_iff _

/-! ### An odd number of bits -/

theorem parity_bitError (len p : Nat) : parity (bitError len p) = true := by
  rw [bitError, parity_bitSteps]
  rfl

/-- Bytes of odd parity have a sum of the parity of their number. -/
theorem parity_xorSum_bitError (len : Nat) (ps : List Nat) :
    parity (xorSum (ps.map (bitError len))) = decide (ps.length % 2 = 1) := by
  induction ps with
  | nil =>
    rw [List.map_nil, xorSum_nil, List.length_nil]
    decide
  | cons p ps ih =>
    rw [List.map_cons, xorSum_cons, parity_xor, parity_bitError, ih, List.length_cons]
    obtain h | h := Nat.mod_two_eq_zero_or_one ps.length <;> simp [h, Nat.add_mod]

/-- Settles O43: iterations keep parity, so an odd number of inverted bits leaves an odd difference. -/
theorem oddNumberOfBitFlipsChangesTheChecksum : Obligations.OddNumberOfBitFlipsChangesTheChecksum := by
  intro m ps _ hpositions hodd
  rw [Ne, crc8_invertMessageBits_eq_iff hpositions]
  intro hzero
  have hparity := parity_xorSum_bitError m.length ps
  rw [hzero, hodd] at hparity
  exact absurd hparity (by decide)

/-! ### Bits in a window of eight -/

/-- Bit `j` of a sum of single bits, none of which is bit `j`. -/
theorem getLsbD_xorSum_shifts {j : Nat} {js : List Nat} (h : j ∉ js) :
    (xorSum (js.map (1#8 <<< ·))).getLsbD j = false := by
  induction js with
  | nil => simp
  | cons i js ih =>
    obtain ⟨hne, hjs⟩ : j ≠ i ∧ j ∉ js := by simpa using h
    have hbit : (1#8 <<< i).getLsbD j = false := by
      simp only [BitVec.getLsbD_shiftLeft, BitVec.getLsbD_one]
      grind
    rw [List.map_cons, xorSum_cons, BitVec.getLsbD_xor, hbit, ih hjs]
    rfl

/-- Distinct single bits do not cancel: the first of them stays set. -/
theorem xorSum_shifts_ne_zero {js : List Nat} (hne : js ≠ []) (hnodup : js.Nodup) (h : ∀ j ∈ js, j < 8) :
    xorSum (js.map (1#8 <<< ·)) ≠ 0 := by
  obtain ⟨j, js, rfl⟩ := List.exists_cons_of_ne_nil hne
  have hj : j < 8 := h j List.mem_cons_self
  have hself : (1#8 <<< j).getLsbD j = true := by
    simp [hj]
  intro hzero
  have hbit := congrArg (BitVec.getLsbD · j) hzero
  simp [getLsbD_xorSum_shifts hnodup.notMem, hself] at hbit

/-- Bits in a window share the iterations after it and differ by shifts in a byte. -/
theorem xorSum_bitError_window {len w : Nat} {ps : List Nat} (h : ∀ p ∈ ps, w ≤ p ∧ p < w + 8 ∧ p < 8 * len) :
    xorSum (ps.map (bitError len)) =
      bitSteps (8 * len - w) (xorSum ((ps.map (w + 7 - ·)).map (1#8 <<< ·))) := by
  rw [bitSteps_xorSum, List.map_map, List.map_map]
  congr 1
  refine List.map_congr_left fun p hp => ?_
  obtain ⟨hlow, hhigh, hlen⟩ := h p hp
  have hiterations : 8 * len + 7 - p = (8 * len - w) + (w + 7 - p) := by omega
  rw [bitError, hiterations, bitSteps_add, bitSteps_one (by omega)]
  rfl

/-- Settles O44: the shifts of distinct positions do not cancel, and iterations bring nothing but zero to zero. -/
theorem flipsWithinEightBitsChangeTheChecksum : Obligations.FlipsWithinEightBitsChangeTheChecksum := by
  intro m ps w hne hnodup hwindow
  have hdistinct : (ps.map (w + 7 - ·)).Nodup := by
    refine hnodup.map_on fun p hp q hq heq => ?_
    obtain ⟨-, hp8, -⟩ := hwindow p hp
    obtain ⟨-, hq8, -⟩ := hwindow q hq
    omega
  have hbits : ∀ j ∈ ps.map (w + 7 - ·), j < 8 := by
    intro j hj
    obtain ⟨p, hp, rfl⟩ := List.mem_map.mp hj
    obtain ⟨hlow, -, -⟩ := hwindow p hp
    omega
  have hpositions : ∀ p ∈ ps, p < 8 * m.length := by
    intro p hp
    obtain ⟨-, -, hlen⟩ := hwindow p hp
    exact hlen
  have hsum : xorSum ((ps.map (w + 7 - ·)).map (1#8 <<< ·)) ≠ 0 :=
    xorSum_shifts_ne_zero (by simpa using hne) hdistinct hbits
  rwa [Ne, crc8_invertMessageBits_eq_iff hpositions, xorSum_bitError_window hwindow, bitSteps_eq_zero_iff]

end Sys2Proof.Machine
end
section
/-! PROOFS. The text of a line (`30_encoding.md` R37): a mnemonic and byte literals, split at the spaces and read
back. -/

namespace Sys2Proof.Machine

/-! ### Byte literals -/

theorem hexValue_digit {n : Nat} (h : n < 16) : hexValue (hexDigits.getD n '0') = some n := by
  revert n
  decide

/-- A byte is its two digits. -/
theorem parseByte_printByte (b : Byte) : parseByte (printByte b) = some b := by
  have hlt : b.toNat < 2 ^ 8 := b.isLt
  have hdigits : 16 * (b.toNat / 16) + b.toNat % 16 = b.toNat := Nat.div_add_mod ..
  simp only [printByte, parseByte, hexValue_digit (show b.toNat / 16 < 16 by omega),
    hexValue_digit (Nat.mod_lt b.toNat (by decide : 0 < 16)), hdigits, BitVec.ofNat_toNat, BitVec.setWidth_eq]

theorem parseBytes_map_printByte (bs : List Byte) : parseBytes (bs.map printByte) = some bs := by
  induction bs with
  | nil => rfl
  | cons b bs ih => simp only [List.map_cons, parseBytes, parseByte_printByte, ih]

/-! ### A line is a mnemonic and byte literals -/

/-- The mnemonic of a line. -/
def Line.mnemonic : Line → List Char
  | .init => ['I', 'N', 'I', 'T']
  | .update _ => ['U', 'P', 'D', 'A', 'T', 'E']
  | .msg _ => ['M', 'S', 'G']
  | .append _ => ['A', 'P', 'P', 'E', 'N', 'D']
  | .chk _ => ['C', 'H', 'K']

/-- The bytes that stand after it. -/
def Line.operands : Line → List Byte
  | .init => []
  | .update b => [b]
  | .msg bs => bs
  | .append bs => bs
  | .chk c => [c]

theorem printLine_eq (l : Line) : printLine l = l.mnemonic ++ printOperands l.operands := by
  cases l <;> rfl

/-- The words of a line read back as the line. -/
theorem parseWords_line (l : Line) : parseWords (l.mnemonic :: l.operands.map printByte) = some l := by
  rw [parseWords, parseBytes_map_printByte]
  cases l <;> rfl

/-! ### No character of a line is a semicolon, and none of a word is a space -/

theorem hexDigit_ne {n : Nat} (h : n < 16) : hexDigits.getD n '0' ≠ ' ' ∧ hexDigits.getD n '0' ≠ ';' := by
  revert n
  decide

theorem ne_of_mem_printByte {b : Byte} {c : Char} (h : c ∈ printByte b) : c ≠ ' ' ∧ c ≠ ';' := by
  have hlt : b.toNat < 2 ^ 8 := b.isLt
  obtain rfl | rfl | rfl | rfl : c = '0' ∨ c = 'x' ∨ c = hexDigits.getD (b.toNat / 16) '0' ∨
      c = hexDigits.getD (b.toNat % 16) '0' := by
    simpa only [printByte, List.mem_cons, List.not_mem_nil, or_false] using h
  · decide
  · decide
  · exact hexDigit_ne (by omega)
  · exact hexDigit_ne (by omega)

theorem ne_of_mem_mnemonic {l : Line} {c : Char} (h : c ∈ l.mnemonic) : c ≠ ' ' ∧ c ≠ ';' := by
  revert c
  cases l <;> simp [Line.mnemonic]

theorem semicolon_not_mem_printOperands (bs : List Byte) : ';' ∉ printOperands bs := by
  induction bs with
  | nil => exact List.not_mem_nil
  | cons b bs ih =>
    have hb : ';' ∉ printByte b := fun h => (ne_of_mem_printByte h).right rfl
    simp [printOperands, hb, ih]

theorem semicolon_not_mem_printLine (l : Line) : ';' ∉ printLine l := by
  have hmnemonic : ';' ∉ l.mnemonic := fun h => (ne_of_mem_mnemonic h).right rfl
  simp [printLine_eq, hmnemonic, semicolon_not_mem_printOperands]

/-! ### Comments -/

/-- A text without a semicolon stands before the comment. -/
theorem dropComment_append {text : List Char} (h : ';' ∉ text) (rest : List Char) :
    dropComment (text ++ rest) = text ++ dropComment rest := by
  induction text with
  | nil => rfl
  | cons c cs ih =>
    obtain ⟨hc, hcs⟩ : ';' ≠ c ∧ ';' ∉ cs := by simpa using h
    rw [List.cons_append, dropComment, if_neg hc.symm, ih hcs, List.cons_append]

theorem dropComment_semicolon (comment : List Char) : dropComment (';' :: comment) = [] := rfl

/-! ### Words -/

/-- The characters of a word are read up to its end. -/
theorem splitWords_append {w : List Char} (h : ∀ c ∈ w, c ≠ ' ') (cur rest : List Char) :
    splitWords cur (w ++ rest) = splitWords (w.reverse ++ cur) rest := by
  induction w generalizing cur with
  | nil => rfl
  | cons c w ih =>
    obtain ⟨hc, hw⟩ := List.forall_mem_cons.mp h
    rw [List.cons_append, splitWords, if_neg hc, ih hw, List.reverse_cons, List.append_assoc, List.singleton_append]

/-- Spaces after the last word are skipped. -/
theorem splitWords_append_space (cur text : List Char) : splitWords cur (text ++ [' ']) = splitWords cur text := by
  induction text generalizing cur with
  | nil => by_cases hcur : cur = [] <;> simp [splitWords, hcur]
  | cons c cs ih => simp only [List.cons_append, splitWords, ih]

/-- A word that has been read ends where the operands begin. -/
theorem splitWords_printOperands {w : List Char} (h : w ≠ []) (bs : List Byte) :
    splitWords w.reverse (printOperands bs) = w :: bs.map printByte := by
  have hcur : w.reverse ≠ [] := by simpa using h
  induction bs generalizing w with
  | nil => rw [printOperands, splitWords, if_neg hcur, List.reverse_reverse, List.map_nil]
  | cons b bs ih =>
    have hword : ∀ c ∈ printByte b, c ≠ ' ' := fun c hc => (ne_of_mem_printByte hc).left
    rw [printOperands, List.cons_append, splitWords, if_pos rfl, if_neg hcur, List.reverse_reverse,
      splitWords_append hword, List.append_nil, ih (by simp [printByte]) (by simp [printByte]), List.map_cons]

theorem splitWords_printLine (l : Line) : splitWords [] (printLine l) = l.mnemonic :: l.operands.map printByte := by
  have hword : ∀ c ∈ l.mnemonic, c ≠ ' ' := fun c hc => (ne_of_mem_mnemonic hc).left
  have hne : l.mnemonic ≠ [] := by cases l <;> exact List.cons_ne_nil _ _
  rw [printLine_eq, splitWords_append hword, List.append_nil, splitWords_printOperands hne]

/-- A text whose words are those of a line reads as the line. -/
theorem parseLine_of_splitWords {l : Line} {text : List Char}
    (h : splitWords [] (dropComment text) = splitWords [] (printLine l)) : parseLine text = some l := by
  rw [parseLine, h, splitWords_printLine, parseWords_line]

/-- Settles O48: comments and the space before them are skipped, and the words of the line read back. -/
theorem lineTextReadsBack : Obligations.LineTextReadsBack := by
  intro l comment
  have hdrop := dropComment_append (semicolon_not_mem_printLine l)
  refine ⟨parseLine_of_splitWords ?_, parseLine_of_splitWords ?_, parseLine_of_splitWords ?_⟩
  · have hnone : dropComment (printLine l) = printLine l := by simpa [dropComment] using hdrop []
    rw [hnone]
  · rw [hdrop, dropComment_semicolon, List.append_nil]
  · have hspace : dropComment (' ' :: ';' :: comment) = [' '] := rfl
    rw [hdrop, hspace, splitWords_append_space]

end Sys2Proof.Machine
end

section
/-! PROOFS. The two checks of a received checksum and the frames of both device families (`41_message_protocol.md` R62
to R68): each check says whether the byte is the checksum, and groups follow one another as runs do. -/

namespace Sys2Proof.Machine

/-! ### What the two checks say -/

theorem compareCheck_eq (m : List Byte) (c : Byte) (s : State) : compareCheck m c s = (c == crc8 m) := by
  rw [Bool.eq_iff_iff, compareCheck_iff, beq_iff_eq]

theorem residueCheck_eq (m : List Byte) (c : Byte) (s : State) : residueCheck m c s = (c == crc8 m) := by
  rw [Bool.eq_iff_iff, residueCheck_iff, beq_iff_eq]

/-- Settles O49: both say whether the byte is the checksum. -/
theorem compareAndResidueMethodsAgree : Obligations.CompareAndResidueMethodsAgree :=
  fun m c s => ⟨(compareCheck_eq m c s).trans (residueCheck_eq m c s).symm, compareCheck_iff m c s⟩

/-- Settles O54: that byte is the checksum. -/
theorem exactlyOneChecksumBytePasses : Obligations.ExactlyOneChecksumBytePasses := by
  intro m s
  simp only [residueCheck_iff]
  exact existsUnique_eq

/-- Settles O52: the checksums are evaluated, and the residue check compares with them. -/
theorem stuckLineFramesAreNeverValid : Obligations.StuckLineFramesAreNeverValid := by
  refine ⟨by decide +kernel, by decide +kernel, by decide +kernel, by decide +kernel, ?_, fun s => ?_⟩
  · rintro b (rfl | rfl) <;> decide +kernel
  · simp only [residueCheck_eq]
    rintro b (rfl | rfl) <;> decide +kernel

/-! ### Groups one after the other -/

theorem assemble_append_lines (ls ks : List Line) : assemble (ls ++ ks) = assemble ls ++ assemble ks := by
  simp [assemble]

/-- After a completed program the next runs from where it ended. -/
theorem runProgram_append_of_next {ls : List Line} {s t : State} (h : runProgram ls s = .next t) (ks : List Line) :
    runProgram (ls ++ ks) s = runProgram ks t := by
  rw [runProgram, assemble_append_lines, List.map_append, runOn_append_of_next h, runProgram]

/-- The residue after a group, whatever came before. -/
theorem crcAfter_msg_chk_eq_zero_iff (m : List Byte) (c : Byte) (s : State) :
    crcAfter (runProgram [.msg m, .chk c] s) = some 0x00 ↔ (c == crc8 m) = true := by
  rw [crcAfter_msg_chk, Option.some_inj, byteStep_eq_zero_iff, beq_iff_eq]

/-- Settles O53: each frame's validity is that comparison, and the second group starts anew with its `INIT`. -/
theorem engineChecksTheFramesOfBothFamilies : Obligations.EngineChecksTheFramesOfBothFamilies := by
  refine ⟨fun f s => ⟨compareCheck_eq .., residueCheck_eq ..⟩, fun g s => ⟨compareCheck_eq .., residueCheck_eq ..⟩,
    fun r s => ⟨crcAfter_msg_chk_eq_zero_iff .., ?_⟩⟩
  have hgroups := runProgram_append_of_next (runProgram_msg_chk [r[0], r[1]] r[2] s) [.msg [r[3], r[4]], .chk r[5]]
  rw [List.cons_append, List.cons_append, List.nil_append] at hgroups
  rw [hgroups]
  exact crcAfter_msg_chk_eq_zero_iff ..

end Sys2Proof.Machine
end

section
/-! PROOFS. Busy time in terms of the open parameters (`70_reset_and_hazards.md` R90). -/

namespace Sys2Proof.Machine

theorem one_le_busyCycles (i : Instr) : 1 ≤ busyCycles i := by
  cases i with
  | init => exact Nat.le_add_left 1 Config.tInitBeyondOne
  | update d => exact Nat.le_add_left 1 Config.tUpdateBeyondOne

/-- The busy time of a list is the sum of its operations' busy times. -/
theorem busyCyclesAll_eq_sum (is : List Instr) : busyCyclesAll is = (is.map busyCycles).sum := by
  induction is with
  | nil => rfl
  | cons i is ih => rw [busyCyclesAll, ih, List.map_cons, List.sum_cons]

theorem length_le_busyCyclesAll (is : List Instr) : is.length ≤ busyCyclesAll is := by
  rw [busyCyclesAll_eq_sum, ← List.length_map (f := busyCycles)]
  refine List.length_le_sum_of_one_le _ fun n hn => ?_
  obtain ⟨i, -, rfl⟩ := List.mem_map.mp hn
  exact one_le_busyCycles i

/-- A message keeps the engine busy according to its length alone. -/
theorem busyCyclesAll_msg (bs : List Byte) :
    busyCyclesAll (Line.msg bs).expand = Config.tInit + bs.length * Config.tUpdate := by
  have hupdates : (bs.map Instr.update).map busyCycles = List.replicate bs.length Config.tUpdate := by
    rw [List.map_map]
    exact List.map_const' ..
  rw [busyCyclesAll_eq_sum, Line.expand, List.map_cons, hupdates, List.sum_cons, List.sum_replicate, smul_eq_mul]
  rfl

/-- Settles O57: each operation takes at least one cycle, and a message takes what its length says. -/
theorem busyTimeIsAtLeastOneCycleAndDataIndependent : Obligations.BusyTimeIsAtLeastOneCycleAndDataIndependent :=
  ⟨one_le_busyCycles, fun _ _ => rfl, length_le_busyCyclesAll,
    fun bs bs' h => by rw [busyCyclesAll_msg, busyCyclesAll_msg, h]⟩

end Sys2Proof.Machine
end
